-- ==== Sys2Proof/Word.lean ====
section
/-! DEFINITION. The bit-vector types of the controller (00_scope.md R5, R6): everything is unsigned. -/

namespace Sys2Proof

/-- A command or response word, WORD_W = 32 bits (R5, R34, R35). -/
abbrev Word := BitVec 32

/-- An address, and the contents of the shift chain and of the output register, 24 bits (R5, R26, R50). -/
abbrev Addr := BitVec 24

/-- A byte, DATA_W = 8 bits (R5, R50). -/
abbrev Byte := BitVec 8

/-- A line level (R10): `false` is 0 (low), `true` is 1 (high). Levels are never called asserted (R7). -/
abbrev Level := Bool

end Sys2Proof
end

