-- ==== Sys2Proof/Config.lean ====
section
/-! DEFINITION. What is fixed for a machine (00_scope.md R5, R45) and the free values, constants with no body that
stand where the spec gives no value. The values of the parameters of this hardware are in Machine/Parameters.lean. -/

namespace Sys2Proof

/-- The parameters of R5 that a rule reads. Each is a field, since the spec asks that its unaudited literals (N2) and
the command bytes from general knowledge (G1) be taken as configuration. Delays are in nanoseconds. -/
structure Config where
  /-- T_READ_ACCESS: between output-enable low and the sample of `read_byte` -/
  tReadAccess : Nat
  /-- T_OE_PULSE: width of the output-enable low pulse of `write_bytes` -/
  tOePulse : Nat
  /-- T_WRITE_SETUP: after chip-enable and write-enable are driven high -/
  tWriteSetup : Nat
  /-- T_WRITE_DATA: after the data lines are driven -/
  tWriteData : Nat
  /-- T_WRITE_SETTLE: after the last `set_1` of `write_bytes` -/
  tWriteSettle : Nat
  /-- T_CMD_SETTLE: at the end of each command helper -/
  tCmdSettle : Nat
  /-- UNLOCK_ADDR_1: first and third address of an unlock triple -/
  unlockAddr1 : Addr
  /-- UNLOCK_ADDR_2: second address of an unlock triple -/
  unlockAddr2 : Addr
  /-- UNLOCK_DATA_1: first data byte of an unlock triple -/
  unlockData1 : Byte
  /-- UNLOCK_DATA_2: second data byte of an unlock triple -/
  unlockData2 : Byte
  /-- CMD_PROTECT: third data byte of `enable_protection` -/
  cmdProtect : Byte
  /-- CMD_SETUP: third data byte of the first triple of `disable_protection` and `erase_chip` -/
  cmdSetup : Byte
  /-- CMD_UNPROTECT: third data byte of the second triple of `disable_protection` -/
  cmdUnprotect : Byte
  /-- CMD_ERASE: third data byte of the second triple of `erase_chip` -/
  cmdErase : Byte
  deriving DecidableEq, Repr

/-- The `n`-th free byte (R51, R64, U4, U5, U10): what a sample reads, and the data an ill-formed strobe presents.
Nothing constrains it. DESIGN CHOICE, log 5. -/
opaque Config.freeByte : Nat → Byte

/-- The `n`-th free address (R52, U6): the address an ill-formed strobe presents. Nothing constrains it. DESIGN
CHOICE, log 6. -/
opaque Config.freeAddress : Nat → Addr

/-- The contents of SC after the reset that takes draw `n` (R44, U8). Nothing constrains it. DESIGN CHOICE, log 7. -/
opaque Config.unspecChain : Nat → Addr

/-- The contents of PR after the reset that takes draw `n` (R44, U8). DESIGN CHOICE, log 7. -/
opaque Config.unspecOutput : Nat → Addr

/-- The contents of DOUT after the reset that takes draw `n` (R44, U8). DESIGN CHOICE, log 7. -/
opaque Config.unspecDout : Nat → Byte

/-- The contents of DIN after the reset that takes draw `n` (R44, U8). DESIGN CHOICE, log 7. -/
opaque Config.unspecDin : Nat → Byte

end Sys2Proof
end

