-- ==== Sys2Proof/Syntax.lean ====
section
/-! DEFINITION. The abstract syntax of commands (30_encoding.md R79): one constructor per row of the opcode table (R75). -/

namespace Sys2Proof

/-- A command, one operation with its operands (R79). The operand types are exactly as wide as the spec's, so an
address of 2^24 or more and a byte of 2^8 or more cannot be written (R73). -/
inductive Instr where
  /-- `clear` (R100) -/
  | clear
  /-- `shift` (R101) -/
  | shift
  /-- `latch` (R102) -/
  | latch
  /-- `on` (R103) -/
  | on
  /-- `off` (R104) -/
  | off
  /-- `send_bit` (R105); `true` is bit 1 -/
  | sendBit (bit : Bool)
  /-- `send_byte` (R106) -/
  | sendByte (value : Byte)
  /-- `set_1` (R120) -/
  | set1
  /-- `set_0` (R121) -/
  | set0
  /-- `io_output` (R122) -/
  | ioOutput
  /-- `io_input` (R123) -/
  | ioInput
  /-- `set_address` (R124) -/
  | setAddress (addr : Addr)
  /-- `read_byte` (R135) -/
  | readByte (addr : Addr)
  /-- `read_page` (R137) -/
  | readPage (page pageSize : BitVec 24)
  /-- `write_bytes` (R150): the two lists are independent and paired by the operation (R151) -/
  | writeBytes (addresses : List Addr) (data : List Byte)
  /-- `enable_protection` (R166) -/
  | enableProtection
  /-- `disable_protection` (R167) -/
  | disableProtection
  /-- `erase_chip` (R168) -/
  | eraseChip
  deriving DecidableEq, Repr

end Sys2Proof
end

