-- ==== Sys2Proof/Machine/State.lean ====
section
/-! DEFINITION. The state of the controller and its environment (10_state.md R20-R45), as plain data, and the state after
reset (R44). -/

namespace Sys2Proof.Machine

/-- The eight single line latches a `SET` can write (R8). -/
inductive Line where
  /-- serial-data (R21) -/
  | ser
  /-- shift-clock (R22) -/
  | srclk
  /-- register-clock (R23) -/
  | rclk
  /-- asynchronous clear, CLR_n (R24) -/
  | clrN
  /-- shift-register output-enable, SR_OE_n (R25) -/
  | srOeN
  /-- chip-enable, CE_n (R29) -/
  | ceN
  /-- EEPROM output-enable, OE_n (R29) -/
  | oeN
  /-- write-enable, WE_n (R29) -/
  | weN
  deriving DecidableEq, Repr

/-- The direction of the eight data lines together (R30). -/
inductive Dir where
  /-- IN: the controller drives none of them -/
  | input
  /-- OUT: the controller drives DOUT -/
  | output
  deriving DecidableEq, Repr

/-- The micro-operations (00_scope.md R8). -/
inductive Micro where
  /-- `SET(L, v)` -/
  | set (line : Line) (v : Level)
  /-- `SET3(v)`: CE_n, OE_n and WE_n in one step -/
  | set3 (v : Level)
  /-- `DIR(m)` -/
  | dir (m : Dir)
  /-- `DATA(b)` -/
  | data (b : Byte)
  /-- `WAIT(t)`, t in nanoseconds, a lower bound -/
  | wait (t : Nat)
  /-- `SAMPLE` -/
  | sample
  /-- `RESP(DATA(DIN))`: the word is built from DIN when it executes -/
  | respData
  /-- `RESP(w)` -/
  | resp (w : Word)
  deriving DecidableEq, Repr

/-- The events of TRACE (R8, R40), one for each micro-operation performed. -/
inductive Event where
  | set (line : Line) (v : Level)
  | set3 (v : Level)
  | dir (m : Dir)
  | data (b : Byte)
  | wait (t : Nat)
  | sample (v : Byte)
  | resp (w : Word)
  deriving DecidableEq, Repr

/-- The bus cycles the model records for a device model to judge (20_memory.md R51, R52, R64). -/
inductive BusCycle where
  /-- a well-formed read cycle at an address, with the byte it returned (R51) -/
  | read (addr : Addr) (v : Byte)
  /-- a sample outside a well-formed read cycle: a bare draw, no address (R51) -/
  | illFormedRead (v : Byte)
  /-- a well-formed write strobe (R52) -/
  | strobe (addr : Addr) (v : Byte)
  /-- an ill-formed write strobe; what it presents is unspecified, so both are free values (R52) -/
  | illFormedStrobe (addr : Addr) (v : Byte)
  deriving DecidableEq, Repr

/-- Which device stands at the chip's place (R64). -/
inductive Device where
  /-- the general model: every answer is a free byte -/
  | oracle
  /-- the ideal device, with MEM in `State.mem` -/
  | ideal
  /-- a run with the ideal device that has left its domain: every answer is a free byte -/
  | outside
  deriving DecidableEq, Repr

/-- The steps other than the fused command step that the schedule can ask for (R38, R210). -/
inductive Turn where
  /-- the host's PUSH(w) -/
  | push (w : Word)
  /-- the host's POP -/
  | pop
  /-- one step of the controller: FETCH, ERROR or EXEC -/
  | controller
  /-- the external reset input -/
  | reset
  deriving DecidableEq, Repr

/-- The memory of the ideal device, cells in strictly rising address order. -/
abbrev Memory := List Host.Cell

/-- Why the machine stops. -/
inductive Fault where
  /-- Raised by `step` alone, when HALTED = 1, no command is in progress and no turn is pending: the controller takes no
  step and only reset, which would be a turn, ends the halt (10_state.md R36, 60_exceptions.md R185). Safe: the machine
  stops where the hardware stands still for ever. Log 3. -/
  | halted
  deriving DecidableEq, Repr

/-- Why an instruction has no meaning. -/
inductive Refusal where
  /-- Raised by `exec` for a constructor that is not modelled yet; no arm of `exec` answers it in this model. Safe: the
  machine stops where the hardware goes on. -/
  | notModelled (mnemonic : String)
  deriving DecidableEq, Repr

/-- The state. The first group is the controller's (R20: "a model needs no other"); the second is what the rules ask the
model to record and the environment (R51, R52, R64); the third is the model's own. -/
structure State where
  /-- SER, serial-data latch (R21) -/
  ser : Level
  /-- SRCLK, shift-clock latch (R22) -/
  srclk : Level
  /-- RCLK, register-clock latch (R23) -/
  rclk : Level
  /-- CLR_n, clear latch (R24) -/
  clrN : Level
  /-- SR_OE_n, shift-register output-enable latch (R25) -/
  srOeN : Level
  /-- SC, the shift chain (R26); bit k is stage k -/
  sc : Addr
  /-- PR, the parallel output register (R27) -/
  pr : Addr
  /-- CE_n, chip-enable latch (R29) -/
  ceN : Level
  /-- OE_n, EEPROM output-enable latch (R29) -/
  oeN : Level
  /-- WE_n, write-enable latch (R29) -/
  weN : Level
  /-- DIR, direction of the data lines (R30) -/
  dir : Dir
  /-- DOUT, data output latch (R31) -/
  dout : Byte
  /-- DIN, data capture register (R33) -/
  din : Byte
  /-- CQ, command queue, head first (R34) -/
  cq : List Word
  /-- RQ, response queue, head first (R35) -/
  rq : List Word
  /-- HALTED, the only flag (R36) -/
  halted : Bool
  /-- RUN, the micro-operations of the command in progress still to be done (R37) -/
  run : List Micro
  /-- TRACE, oldest event first (R40) -/
  trace : List Event
  /-- the bus cycles made, oldest first (R51, R52, R64) -/
  history : List BusCycle
  /-- the device at the chip's place (R64) -/
  device : Device
  /-- MEM of the ideal device (R64) -/
  mem : Memory
  /-- how many free values have been taken; the index of the next one (log 5) -/
  draws : Nat
  /-- the turns still to be taken before the controller runs on its own (log 4) -/
  turns : List Turn
  /-- the words the host has received by POP, oldest first (R38; log 18) -/
  received : List Word
  deriving DecidableEq, Repr

/-- The reset state of R44 with its four unspecified values named: R(sc, pr, dout, din) of 95_test_vectors.md. The
environment is the oracle with nothing recorded. -/
def State.resetWith (sc pr : Addr) (dout din : Byte) : State where
  ser := false
  srclk := false
  rclk := false
  clrN := true
  srOeN := false
  sc := sc
  pr := pr
  ceN := true
  oeN := true
  weN := true
  dir := .input
  dout := dout
  din := din
  cq := []
  rq := []
  halted := false
  run := []
  trace := []
  history := []
  device := .oracle
  mem := []
  draws := 1
  turns := []
  received := []

/-- The machine right after power-on reset (R44, R211, R212). SC, PR, DOUT and DIN are unspecified there: they are
constants with no body, never 0 (R44). Draw 0 is this reset's. DESIGN CHOICE, log 7. -/
def State.reset : State :=
  State.resetWith (Config.unspecChain 0) (Config.unspecOutput 0) (Config.unspecDout 0) (Config.unspecDin 0)

end Sys2Proof.Machine
end

