-- ==== Sys2Proof/Machine/Flags.lean ====
section
/-! DEFINITION. The flags: HALTED is the only one (10_state.md R36, R43); no operation sets a flag as a side effect. -/

namespace Sys2Proof.Machine

/-- `HALTED <- 1` (R36, R184). Nothing but reset clears it. -/
def setHalted (s : State) : State := { s with halted := true }

end Sys2Proof.Machine
end

