-- ==== Sys2Proof/Machine/Memory.lean ====
section
/-! DEFINITION. The memory of the ideal device (20_memory.md R64): a canonical list of cells. -/

namespace Sys2Proof.Machine

/-- What an unlisted address of MEM holds. The spec makes the initial contents a parameter of the test (R64): a test lists
the cells it needs. DESIGN CHOICE, log 9. -/
def memoryFill : Byte := 0x00#8

/-- The byte MEM holds at an address. -/
def memoryRead : Memory → Nat → Byte
  | [], _ => memoryFill
  | (k, b) :: rest, a => if k = a then b else memoryRead rest a

/-- A cell in canonical form: nothing is listed that equals what an unlisted address holds. -/
def memoryCell (a : Nat) (v : Byte) : Memory :=
  if v = memoryFill then [] else [(a, v)]

/-- `MEM[a] <- v`, keeping the canonical form. -/
def memoryWrite : Memory → Nat → Byte → Memory
  | [], a, v => memoryCell a v
  | (k, b) :: rest, a, v =>
    if a < k then memoryCell a v ++ (k, b) :: rest
    else if a = k then memoryCell a v ++ rest
    else (k, b) :: memoryWrite rest a v

/-- Every listed address is at least `lo`, addresses rise strictly and stay below 2^24 (R50), and no listed byte equals
what an unlisted address holds. -/
def memoryWfFrom (lo : Nat) : Memory → Bool
  | [] => true
  | (k, b) :: rest => decide (lo ≤ k) && decide (k < 2 ^ 24) && decide (b ≠ memoryFill) && memoryWfFrom (k + 1) rest

/-- The canonical form of a memory. -/
def Memory.wf (m : Memory) : Bool := memoryWfFrom 0 m

end Sys2Proof.Machine
end

