-- ==== Sys2Proof/WellFormed.lean ====
section
/-! DEFINITION. Which terms of the syntax are well-formed commands (30_encoding.md R79). -/

namespace Sys2Proof

/-- The range condition of `read_page` (R77, R138), exact in the natural numbers: an empty page is always in range,
any other page must end at an address below 2^24. -/
abbrev pageInRange (page pageSize : BitVec 24) : Prop :=
  pageSize.toNat = 0 ∨ page.toNat * pageSize.toNat + pageSize.toNat ≤ 2 ^ 24

/-- The length condition of a list of `write_bytes` (R79): its length fits the 24-bit field `na` or `nd`. -/
abbrev lengthFits {α : Type} (xs : List α) : Prop :=
  xs.length < 2 ^ 24

/-- A well-formed command (R79). -/
abbrev Instr.WellFormed (i : Instr) : Prop :=
  match i with
  | .readPage page pageSize => pageInRange page pageSize
  | .writeBytes addresses data => lengthFits addresses ∧ lengthFits data
  | .clear | .shift | .latch | .on | .off | .sendBit _ | .sendByte _ | .set1 | .set0 | .ioOutput | .ioInput
  | .setAddress _ | .readByte _ | .enableProtection | .disableProtection | .eraseChip => True

end Sys2Proof
end

