-- ==== Sys2Proof/Decode.lean ====
section
/-! DEFINITION. The command encoding (30_encoding.md): fields R71, R73, formats R72, opcode map R75, decode R77; then the
encoder, written from the same tables; then the numbering of spec/opcode_table.json. -/

namespace Sys2Proof

/-! ## Fields -/

/-- `op`, bits 31:24 of word 0 (R71). -/
def opField (w : Word) : Byte := w.extractLsb' 24 8

/-- `x`, bits 23:0 of word 0 (R71); also `page_size`, `nd` and `addr_j`, bits 23:0 of their words (R73). -/
def lowField (w : Word) : BitVec 24 := w.extractLsb' 0 24

/-- Bits 31:24 of a later word, a must-be-zero field of formats PG and WB (R72). -/
def highField (w : Word) : Byte := w.extractLsb' 24 8

/-- `value` and `data_j`, bits 7:0 (R73). -/
def byteField (w : Word) : Byte := w.extractLsb' 0 8

/-- `bit`, bit 0 of word 0 (R73). -/
def bitField (w : Word) : Bool := w.getLsbD 0

/-! ## Verdicts -/

/-- The three errors of the hardware (60_exceptions.md R181). -/
inductive ErrorCode where
  | illegalOpcode
  | reservedNonzero
  | addressRange
  deriving DecidableEq, Repr

/-- The code an ERR response carries (R181). -/
def errorByte : ErrorCode → Byte
  | .illegalOpcode => 0x01#8
  | .reservedNonzero => 0x02#8
  | .addressRange => 0x03#8

/-- The result of decode (R77): a well-formed command of `n` words, an error with the `op` byte of word 0, or the queue
ends before a verdict. -/
inductive Verdict where
  | ok (i : Instr) (n : Nat)
  | error (code : ErrorCode) (op : Byte)
  | needMore
  deriving DecidableEq, Repr

/-! ## The scan of the word lists of format WB -/

/-- What a scan of a list of operand words answers: all of them and the words after them, a nonzero must-be-zero
field, or the queue ends first. -/
inductive Scan (α : Type) where
  | done (xs : List α) (rest : List Word)
  | reserved
  | needMore

/-- Take `n` operand words from the head of the queue in word order, stopping at the first verdict (R77): `mbz` says
whether a word's must-be-zero field is zero, `get` takes its operand. -/
def scanWords {α : Type} (mbz : Word → Bool) (get : Word → α) : Nat → List Word → Scan α
  | 0, ws => .done [] ws
  | _ + 1, [] => .needMore
  | n + 1, w :: ws =>
    if mbz w then
      match scanWords mbz get n ws with
      | .done xs rest => .done (get w :: xs) rest
      | .reserved => .reserved
      | .needMore => .needMore
    else .reserved

/-- An address word of WB has bits 31:24 zero (R72). -/
def addressWordMbz (w : Word) : Bool := highField w == 0#8

/-- A data word of WB has bits 31:8 zero (R72). -/
def dataWordMbz (w : Word) : Bool := w.extractLsb' 8 24 == 0#24

/-! ## Decode, format by format -/

/-- Format Z (R72, R77): word 0 with bits 23:0 zero. -/
def decodeZ (i : Instr) (w0 : Word) : Verdict :=
  if lowField w0 = 0#24 then .ok i 1 else .error .reservedNonzero (opField w0)

/-- Format B1 (R72, R77): word 0 with bits 23:1 zero. -/
def decodeB1 (mk : Bool → Instr) (w0 : Word) : Verdict :=
  if w0.extractLsb' 1 23 = 0#23 then .ok (mk (bitField w0)) 1 else .error .reservedNonzero (opField w0)

/-- Format B8 (R72, R77): word 0 with bits 23:8 zero. -/
def decodeB8 (mk : Byte → Instr) (w0 : Word) : Verdict :=
  if w0.extractLsb' 8 16 = 0#16 then .ok (mk (byteField w0)) 1 else .error .reservedNonzero (opField w0)

/-- Format A24 (R72, R77): every word is well-formed. -/
def decodeA24 (mk : Addr → Instr) (w0 : Word) : Verdict :=
  .ok (mk (lowField w0)) 1

/-- Format PG (R72, R77): word 1 must be present, its bits 31:24 zero, and the page in range. -/
def decodePG (w0 : Word) : List Word → Verdict
  | [] => .needMore
  | w1 :: _ =>
    if highField w1 = 0#8 then
      if pageInRange (lowField w0) (lowField w1) then .ok (.readPage (lowField w0) (lowField w1)) 2
      else .error .addressRange (opField w0)
    else .error .reservedNonzero (opField w0)

/-- Format WB (R72, R77): word 1 must be present with bits 31:24 zero; then na address words, then nd data words. -/
def decodeWB (w0 : Word) : List Word → Verdict
  | [] => .needMore
  | w1 :: ws =>
    if highField w1 = 0#8 then
      match scanWords addressWordMbz lowField (lowField w0).toNat ws with
      | .reserved => .error .reservedNonzero (opField w0)
      | .needMore => .needMore
      | .done addresses rest =>
        match scanWords dataWordMbz byteField (lowField w1).toNat rest with
        | .reserved => .error .reservedNonzero (opField w0)
        | .needMore => .needMore
        | .done data _ =>
          .ok (.writeBytes addresses data) (2 + (lowField w0).toNat + (lowField w1).toNat)
    else .error .reservedNonzero (opField w0)

/-- The decode function (R77) over the opcode map (R75). It is total, and an `op` outside the map is ILLEGAL_OPCODE
(R76). -/
def decode : List Word → Verdict
  | [] => .needMore
  | w0 :: ws =>
    match opField w0 with
    | 0x01#8 => decodeZ .clear w0
    | 0x02#8 => decodeZ .shift w0
    | 0x03#8 => decodeZ .latch w0
    | 0x04#8 => decodeZ .on w0
    | 0x05#8 => decodeZ .off w0
    | 0x06#8 => decodeB1 .sendBit w0
    | 0x07#8 => decodeB8 .sendByte w0
    | 0x10#8 => decodeZ .set1 w0
    | 0x11#8 => decodeZ .set0 w0
    | 0x12#8 => decodeZ .ioOutput w0
    | 0x13#8 => decodeZ .ioInput w0
    | 0x14#8 => decodeA24 .setAddress w0
    | 0x15#8 => decodeA24 .readByte w0
    | 0x16#8 => decodePG w0 ws
    | 0x17#8 => decodeWB w0 ws
    | 0x18#8 => decodeZ .enableProtection w0
    | 0x19#8 => decodeZ .disableProtection w0
    | 0x1A#8 => decodeZ .eraseChip w0
    | op => .error .illegalOpcode op

/-! ## Encode -/

/-- The operation code of a command (R75). -/
def opcodeOf : Instr → Byte
  | .clear => 0x01#8
  | .shift => 0x02#8
  | .latch => 0x03#8
  | .on => 0x04#8
  | .off => 0x05#8
  | .sendBit _ => 0x06#8
  | .sendByte _ => 0x07#8
  | .set1 => 0x10#8
  | .set0 => 0x11#8
  | .ioOutput => 0x12#8
  | .ioInput => 0x13#8
  | .setAddress _ => 0x14#8
  | .readByte _ => 0x15#8
  | .readPage _ _ => 0x16#8
  | .writeBytes _ _ => 0x17#8
  | .enableProtection => 0x18#8
  | .disableProtection => 0x19#8
  | .eraseChip => 0x1A#8

/-- The 18 operation codes of R75, in its order. -/
def opcodes : List Byte :=
  [0x01#8, 0x02#8, 0x03#8, 0x04#8, 0x05#8, 0x06#8, 0x07#8, 0x10#8, 0x11#8, 0x12#8, 0x13#8, 0x14#8, 0x15#8, 0x16#8,
    0x17#8, 0x18#8, 0x19#8, 0x1A#8]

/-- A word with `high` in bits 31:24 and `low` in bits 23:0 (R71). -/
def packWord (high : Byte) (low : BitVec 24) : Word := high ++ low

/-- The words of a command (R71, R72). -/
def encode (i : Instr) : List Word :=
  match i with
  | .sendBit bit => [packWord (opcodeOf i) ((BitVec.ofBool bit).setWidth 24)]
  | .sendByte value => [packWord (opcodeOf i) (value.setWidth 24)]
  | .setAddress addr => [packWord (opcodeOf i) addr]
  | .readByte addr => [packWord (opcodeOf i) addr]
  | .readPage page pageSize => [packWord (opcodeOf i) page, packWord 0#8 pageSize]
  | .writeBytes addresses data =>
    packWord (opcodeOf i) (BitVec.ofNat 24 addresses.length) :: packWord 0#8 (BitVec.ofNat 24 data.length) ::
      (addresses.map (packWord 0#8) ++ data.map (fun d => packWord 0#8 (d.setWidth 24)))
  | .clear | .shift | .latch | .on | .off | .set1 | .set0 | .ioOutput | .ioInput | .enableProtection
  | .disableProtection | .eraseChip => [packWord (opcodeOf i) 0#24]

/-- The length of a command in words (R74). -/
def commandLength : Instr → Nat
  | .readPage _ _ => 2
  | .writeBytes addresses data => 2 + addresses.length + data.length
  | .clear | .shift | .latch | .on | .off | .sendBit _ | .sendByte _ | .set1 | .set0 | .ioOutput | .ioInput
  | .setAddress _ | .readByte _ | .enableProtection | .disableProtection | .eraseChip => 1

/-! ## The numbering of spec/opcode_table.json -/

/-- Word `k` of an instruction whose bits are the number `v`, bit 0 the least significant bit of word 0. -/
def tableWord (v k : Nat) : Word := BitVec.ofNat 32 (v >>> (32 * k))

/-- How many words the instruction has whose first words are those of `v` (R74). -/
def tableLength (v : Nat) : Nat :=
  if opField (tableWord v 0) = 0x16#8 then 2
  else if opField (tableWord v 0) = 0x17#8 then
    2 + (lowField (tableWord v 0)).toNat + (lowField (tableWord v 1)).toNat
  else 1

/-- The words of the instruction whose low `nbits` bits are `w` and whose other bits are zero. -/
def tableWords (nbits w : Nat) : List Word :=
  (List.range (tableLength (w % 2 ^ nbits))).map (tableWord (w % 2 ^ nbits))

/-- The instruction decode reads from those words, if it reads one. -/
def decodeTableWord (nbits w : Nat) : Option Instr :=
  match decode (tableWords nbits w) with
  | .ok i _ => some i
  | .error _ _ => none
  | .needMore => none

end Sys2Proof
end

