-- ==== Sys2Proof/Machine/Operands.lean ====
section
/-! DEFINITION. Operand forms: bit orders, page arithmetic, pairing (20_memory.md R53, R54, 42_eeprom_read.md R138,
43_eeprom_write.md R151), response words (30_encoding.md R78), and the derived lines (10_state.md R28, R32). -/

namespace Sys2Proof.Machine

/-- The bits of a byte in the order `send_byte` sends them: bit 0 first, bit 7 last (R106). -/
def byteBits (value : Byte) : List Level :=
  (List.range 8).map (fun i => value.getLsbD i)

/-- The bits of an address in the order `set_address` sends them: bit 23 first, bit 0 last (R124, R54). -/
def addressBits (addr : Addr) : List Level :=
  (List.range 24).map (fun i => addr.getLsbD (23 - i))

/-- `rev8(b)`: the byte whose bit i is `b[7-i]` (R6). -/
def rev8 (b : Byte) : Byte := b.reverse

/-- The addresses of a page in ascending order: `page * page_size + off` for off = 0 .. page_size-1 (R137). Exact for a
page in range (R138). -/
def pageAddresses (page pageSize : BitVec 24) : List Addr :=
  (List.range pageSize.toNat).map (fun off => BitVec.ofNat 24 (page.toNat * pageSize.toNat + off))

/-- The pairs of `write_bytes`: the k-th address with the k-th byte, as many as the shorter list has (R151). -/
def pairs (addresses : List Addr) (data : List Byte) : List (Addr × Byte) :=
  addresses.zip data

/-- The DONE response of an operation code (R78). -/
def doneWord (op : Byte) : Word := 0x80000000#32 ||| op.setWidth 32

/-- The DATA response of a byte (R78). -/
def dataWord (b : Byte) : Word := 0x81000000#32 ||| b.setWidth 32

/-- The ERR response of an error (R78, R184). -/
def errWord (code : ErrorCode) (op : Byte) : Word :=
  0xEE000000#32 ||| ((errorByte code).setWidth 32 <<< 8) ||| op.setWidth 32

/-- The address bus A (R28): PR while SR_OE_n = 0, undriven while SR_OE_n = 1. -/
def addressBus (s : State) : Option Addr :=
  if s.srOeN then none else some s.pr

/-- What the controller puts on the data lines D (R32): DOUT while DIR = OUT, nothing while DIR = IN. -/
def dataDriven (s : State) : Option Byte :=
  match s.dir with
  | .output => some s.dout
  | .input => none

/-- Bus contention (R66, U4): controller and chip both drive the data lines. -/
def contention (s : State) : Bool :=
  decide (s.dir = .output) && !s.ceN && !s.oeN

end Sys2Proof.Machine
end

