-- ==== Sys2Proof/Machine/Ops.lean ====
section
/-! DEFINITION. The shared operations: performing a micro-operation (00_scope.md R8) with the shift datapath (10_state.md
R22-R24), the read cycle and the write strobe (20_memory.md R51, R52), running a command's list (R38), the error entry
(60_exceptions.md R184), and the host's and the reset's steps (R38, R210). -/

namespace Sys2Proof.Machine

/-- Append an event to TRACE (R40). -/
def emit (e : Event) (s : State) : State := { s with trace := s.trace ++ [e] }

/-- Append a word to RQ (R35). -/
def pushResponse (w : Word) (s : State) : State := { s with rq := s.rq ++ [w] }

/-- Record a bus cycle (R51, R52). -/
def recordCycle (c : BusCycle) (s : State) : State := { s with history := s.history ++ [c] }

/-- Move on to the next free value (log 5). -/
def nextDraw (s : State) : State := { s with draws := s.draws + 1 }

/-- The ideal device gives an ill-formed cycle or strobe no meaning: from there on the run is outside its domain
(R64). The other devices stay what they are. -/
def leaveDomain (s : State) : State :=
  { s with device := match s.device with
      | .ideal => .outside
      | .oracle => .oracle
      | .outside => .outside }

/-! ## Lines and the shift datapath -/

/-- One shift of the chain (R22): SER enters stage 0, every bit moves one stage deeper, the old SC[23] is lost. -/
def shiftIn (chain : Addr) (bit : Level) : Addr :=
  (chain <<< 1) ||| (BitVec.ofBool bit).setWidth 24

/-- The chain after the 0-to-1 step of SRCLK (R22). -/
def shiftedChain (s : State) : Addr :=
  if s.clrN then shiftIn s.sc s.ser else 0#24

/-- `L <- v` and the reaction of the shift datapath (R8, R21-R25, R29): the chain shifts on the 0-to-1 step of SRCLK, the
output register loads on the 0-to-1 step of RCLK, every `SET(CLR_n, 0)` clears the chain. -/
def setLine (l : Line) (v : Level) (s : State) : State :=
  match l with
  | .ser => { s with ser := v }
  | .srclk => { s with srclk := v, sc := if v && !s.srclk then shiftedChain s else s.sc }
  | .rclk => { s with rclk := v, pr := if v && !s.rclk then s.sc else s.pr }
  | .clrN => { s with clrN := v, sc := if v then s.sc else 0#24 }
  | .srOeN => { s with srOeN := v }
  | .ceN => { s with ceN := v }
  | .oeN => { s with oeN := v }
  | .weN => { s with weN := v }

/-- `CE_n <- v; OE_n <- v; WE_n <- v` in one step (R8, R120, R121). -/
def setThree (v : Level) (s : State) : State := { s with ceN := v, oeN := v, weN := v }

/-! ## The write strobe -/

/-- CE_n and WE_n are both 0 (R52). -/
def strobeLevels (s : State) : Bool := !s.ceN && !s.weN

/-- The conditions of a well-formed strobe (R52). -/
def strobeWellFormed (s : State) : Bool :=
  decide (s.dir = .output) && s.oeN && !s.srOeN

/-- `MemWrite(PR, 1, DOUT)` by the device: the ideal device stores the byte, the general model only records it (R52,
R64). -/
def deviceWrite (s : State) : State :=
  { s with mem := match s.device with
      | .ideal => memoryWrite s.mem s.pr.toNat s.dout
      | .oracle => s.mem
      | .outside => s.mem }

/-- Present a write strobe to the chip (R52). A well-formed one presents PR and DOUT; what an ill-formed one presents is
unspecified, so a free address and a free byte are recorded (log 6). -/
def presentStrobe (s : State) : State :=
  if strobeWellFormed s then recordCycle (.strobe s.pr s.dout) (deviceWrite s)
  else nextDraw (leaveDomain (recordCycle
    (.illFormedStrobe (Config.freeAddress s.draws) (Config.freeByte s.draws)) s))

/-- A write strobe happens at the micro-operation after which CE_n = WE_n = 0 when they were not both 0 before it
(R52). -/
def strobeIfNew (before after : State) : State :=
  if strobeLevels after && !strobeLevels before then presentStrobe after else after

/-! ## The read cycle -/

/-- The conditions of a well-formed read cycle (R51). -/
def readWellFormed (s : State) : Bool :=
  decide (s.dir = .input) && !s.ceN && !s.oeN && s.weN && !s.srOeN

/-- The byte the chip presents at a well-formed read cycle (R51, R64): the ideal device's MEM[PR], else a free byte
(U10). -/
def chipByte (s : State) : Byte :=
  match s.device with
  | .ideal => memoryRead s.mem s.pr.toNat
  | .oracle => Config.freeByte s.draws
  | .outside => Config.freeByte s.draws

/-- The byte `SAMPLE` reads (R51): the chip's at a well-formed read cycle, else a bare draw (U5). -/
def sampledByte (s : State) : Byte :=
  if readWellFormed s then chipByte s else Config.freeByte s.draws

/-- The bus cycle a sample makes (R51): a read at address PR, or a bare draw. -/
def sampleCycle (s : State) : BusCycle :=
  if readWellFormed s then .read s.pr (sampledByte s) else .illFormedRead (sampledByte s)

/-- A sample outside a well-formed read cycle leaves the ideal device's domain (R64). -/
def sampleDomain (s : State) : State :=
  if readWellFormed s then s else leaveDomain s

/-- `SAMPLE` without its event (R51): `DIN <- v`, all eight lines in one step, and the cycle is recorded. -/
def takeSample (s : State) : State :=
  { nextDraw (recordCycle (sampleCycle s) (sampleDomain s)) with din := sampledByte s }

/-! ## Micro-operations and commands -/

/-- Perform one micro-operation and append its event to TRACE (R8). -/
def perform (m : Micro) (s : State) : State :=
  match m with
  | .set l v => emit (.set l v) (strobeIfNew s (setLine l v s))
  | .set3 v => emit (.set3 v) (strobeIfNew s (setThree v s))
  | .dir d => emit (.dir d) { s with dir := d }
  | .data b => emit (.data b) { s with dout := b }
  | .wait t => emit (.wait t) s
  | .sample => emit (.sample (sampledByte s)) (takeSample s)
  | .respData => emit (.resp (dataWord s.din)) (pushResponse (dataWord s.din) s)
  | .resp w => emit (.resp w) (pushResponse w s)

/-- Perform a list of micro-operations in order (R8, R60). -/
def performAll : List Micro → State → State
  | [], s => s
  | m :: ms, s => performAll ms (perform m s)

/-- A command from its first micro-operation to its DONE response (R38, R78): the fused FETCH and EXEC steps. -/
def runCommand (op : Byte) (ops : List Micro) (s : State) : State :=
  performAll (ops ++ [.resp (doneWord op)]) s

/-! ## The error entry -/

/-- The error entry (60_exceptions.md R184): one ERR word, its event, HALTED set. Nothing else changes: CQ keeps the
offending words, no line moves, nothing is saved, no vector is taken. There is no return but reset (R185). -/
def errorEntry (code : ErrorCode) (op : Byte) (s : State) : State :=
  setHalted (emit (.resp (errWord code op)) (pushResponse (errWord code op) s))

/-! ## Host and reset -/

/-- The host's PUSH(w) (R38). -/
def hostPush (w : Word) (s : State) : State := { s with cq := s.cq ++ [w] }

/-- The host's POP (R38): the head of RQ goes to the host. With RQ empty it is not enabled and nothing happens
(log 4). -/
def hostPop (s : State) : State :=
  match s.rq with
  | [] => s
  | w :: rest => { s with rq := rest, received := s.received ++ [w] }

/-- The external reset, at any time (R210, R211): the controller's state takes its reset values, a command in progress is
abandoned, SC, PR, DOUT and DIN are unspecified again (a fresh draw). The chip, the record of its cycles and the host are
not reset (log 17). -/
def hardReset (s : State) : State :=
  { State.resetWith (Config.unspecChain s.draws) (Config.unspecOutput s.draws) (Config.unspecDout s.draws)
      (Config.unspecDin s.draws) with
    history := s.history
    device := s.device
    mem := s.mem
    draws := s.draws + 1
    turns := s.turns
    received := s.received }

end Sys2Proof.Machine
end

