-- ==== Sys2Proof/Machine/ShiftRegister.lean ====
section
/-! DEFINITION. The seven shift-register operations (40_shift_register.md R100-R108): their micro-operation lists and their
meanings. -/

namespace Sys2Proof.Machine

/-- `clear` (R100). -/
def clearOps : List Micro := [.set .clrN false, .set .clrN true]

/-- `shift` (R101). -/
def shiftOps : List Micro := [.set .srclk true, .set .srclk false]

/-- `latch` (R102). -/
def latchOps : List Micro := [.set .rclk true, .set .rclk false]

/-- `on` (R103). -/
def onOps : List Micro := [.set .srOeN false]

/-- `off` (R104). -/
def offOps : List Micro := [.set .srOeN true]

/-- `send_bit` (R105). -/
def sendBitOps (bit : Level) : List Micro := .set .ser bit :: shiftOps

/-- A run of `send_bit`s, first bit first. -/
def sendBitsOps (bits : List Level) : List Micro := bits.flatMap sendBitOps

/-- `send_byte` (R106): bit 0 first, bit 7 last, one latch. It does not clear the chain. -/
def sendByteOps (value : Byte) : List Micro := sendBitsOps (byteBits value) ++ latchOps

/-- R100 -/
def execClear (s : State) : Host.Outcome State Fault Refusal :=
  .next (runCommand 0x01#8 clearOps s)

/-- R101 -/
def execShift (s : State) : Host.Outcome State Fault Refusal :=
  .next (runCommand 0x02#8 shiftOps s)

/-- R102 -/
def execLatch (s : State) : Host.Outcome State Fault Refusal :=
  .next (runCommand 0x03#8 latchOps s)

/-- R103 -/
def execOn (s : State) : Host.Outcome State Fault Refusal :=
  .next (runCommand 0x04#8 onOps s)

/-- R104 -/
def execOff (s : State) : Host.Outcome State Fault Refusal :=
  .next (runCommand 0x05#8 offOps s)

/-- R105 -/
def execSendBit (bit : Bool) (s : State) : Host.Outcome State Fault Refusal :=
  .next (runCommand 0x06#8 (sendBitOps bit) s)

/-- R106 -/
def execSendByte (value : Byte) (s : State) : Host.Outcome State Fault Refusal :=
  .next (runCommand 0x07#8 (sendByteOps value) s)

end Sys2Proof.Machine
end

