-- ==== Sys2Proof/Machine/LineControl.lean ====
section
/-! DEFINITION. EEPROM line control (41_eeprom_line_control.md R120-R126): micro-operation lists and meanings. -/

namespace Sys2Proof.Machine

/-- `set_1` (R120), the idle or deselect state. -/
def set1Ops : List Micro := [.set3 true]

/-- `set_0` (R121). -/
def set0Ops : List Micro := [.set3 false]

/-- `io_output` (R122). -/
def ioOutputOps : List Micro := [.dir .output]

/-- `io_input` (R123). -/
def ioInputOps : List Micro := [.dir .input]

/-- `set_address` (R124): clear, 24 `send_bit`s most significant bit first, one latch. The list is kept as it is and not
replaced by its net effect (R227). -/
def setAddressOps (addr : Addr) : List Micro :=
  clearOps ++ sendBitsOps (addressBits addr) ++ latchOps

/-- R120 -/
def execSet1 (s : State) : Host.Outcome State Fault Refusal :=
  .next (runCommand 0x10#8 set1Ops s)

/-- R121 -/
def execSet0 (s : State) : Host.Outcome State Fault Refusal :=
  .next (runCommand 0x11#8 set0Ops s)

/-- R122 -/
def execIoOutput (s : State) : Host.Outcome State Fault Refusal :=
  .next (runCommand 0x12#8 ioOutputOps s)

/-- R123 -/
def execIoInput (s : State) : Host.Outcome State Fault Refusal :=
  .next (runCommand 0x13#8 ioInputOps s)

/-- R124 -/
def execSetAddress (addr : Addr) (s : State) : Host.Outcome State Fault Refusal :=
  .next (runCommand 0x14#8 (setAddressOps addr) s)

end Sys2Proof.Machine
end

