-- ==== Sys2Proof/Machine/Parameters.lean ====
section
/-! DEFINITION. The parameter values of this hardware (00_scope.md R5, 70_reset_and_hazards.md R230). -/

namespace Sys2Proof.Machine

/-- The values of R5. The delays, the unlock addresses and bytes and CMD_PROTECT are the source's, unaudited (N2);
CMD_SETUP, CMD_UNPROTECT and CMD_ERASE are from general knowledge (G1). PRESUMED, log 10. -/
def parameters : Config where
  tReadAccess := 150
  tOePulse := 50000000
  tWriteSetup := 150
  tWriteData := 100
  tWriteSettle := 150
  tCmdSettle := 10000000
  unlockAddr1 := 0x005555#24
  unlockAddr2 := 0x002AAA#24
  unlockData1 := 0xAA#8
  unlockData2 := 0x55#8
  cmdProtect := 0xA0#8
  cmdSetup := 0x80#8
  cmdUnprotect := 0x20#8
  cmdErase := 0x10#8

end Sys2Proof.Machine
end

