-- ==== Sys2Proof/Machine/Writes.lean ====
section
/-! DEFINITION. EEPROM write (43_eeprom_write.md R150-R154): micro-operation lists and the meaning. -/

namespace Sys2Proof.Machine

/-- One pair of `write_bytes` (R150): chip-enable before write-enable, both high and then both low; the last
micro-operation is the write strobe. -/
def writePairOps (c : Config) (p : Addr × Byte) : List Micro :=
  setAddressOps p.1 ++
    [.set .ceN true, .set .weN true, .wait c.tWriteSetup, .data p.2, .wait c.tWriteData, .set .ceN false,
      .set .weN false]

/-- The opening of `write_bytes` (R150): drive the data lines, then the output-enable pulse, once for the batch. -/
def writeOpeningOps (c : Config) : List Micro :=
  ioOutputOps ++ [.set .oeN false, .wait c.tOePulse, .set .oeN true]

/-- The closing of `write_bytes` (R150). -/
def writeClosingOps (c : Config) : List Micro :=
  set1Ops ++ [.wait c.tWriteSettle]

/-- `write_bytes` for a list of pairs (R150). -/
def writePairsOps (c : Config) (ps : List (Addr × Byte)) : List Micro :=
  writeOpeningOps c ++ ps.flatMap (writePairOps c) ++ writeClosingOps c

/-- `write_bytes` (R150, R151). -/
def writeBytesOps (c : Config) (addresses : List Addr) (data : List Byte) : List Micro :=
  writePairsOps c (pairs addresses data)

/-- R150 -/
def execWriteBytes (addresses : List Addr) (data : List Byte) (s : State) : Host.Outcome State Fault Refusal :=
  .next (runCommand 0x17#8 (writeBytesOps parameters addresses data) s)

end Sys2Proof.Machine
end

