-- ==== Sys2Proof/Machine/Commands.lean ====
section
/-! DEFINITION. Chip command helpers (44_eeprom_commands.md R165-R170): the table of R170, micro-operation lists and
meanings. -/

namespace Sys2Proof.Machine

/-- An unlock triple (R165): two unlock pairs, then the command byte at the first unlock address. -/
def unlockTriple (c : Config) (command : Byte) : List (Addr × Byte) :=
  [(c.unlockAddr1, c.unlockData1), (c.unlockAddr2, c.unlockData2), (c.unlockAddr1, command)]

/-- The row of `enable_protection` (R166, R170). -/
def enableProtectionPairs (c : Config) : List (Addr × Byte) :=
  unlockTriple c c.cmdProtect

/-- The row of `disable_protection` (R167, R170): six pairs. That they go in one `write_bytes`, not two of three, is
DEDUCED: ASSUMED, as decision D15 asks (log 26). -/
def disableProtectionPairs (c : Config) : List (Addr × Byte) :=
  unlockTriple c c.cmdSetup ++ unlockTriple c c.cmdUnprotect

/-- The row of `erase_chip` (R168, R170): six pairs, in one `write_bytes`. DEDUCED: ASSUMED,
as decision D15 asks (log 26). -/
def eraseChipPairs (c : Config) : List (Addr × Byte) :=
  unlockTriple c c.cmdSetup ++ unlockTriple c c.cmdErase

/-- A helper (R165): one `write_bytes` of its pairs, then the settle wait. The one-call shape of the six-pair helpers is
DEDUCED: ASSUMED, as decision D15 asks (log 26). -/
def helperOps (c : Config) (ps : List (Addr × Byte)) : List Micro :=
  writePairsOps c ps ++ [.wait c.tCmdSettle]

/-- R166 -/
def execEnableProtection (s : State) : Host.Outcome State Fault Refusal :=
  .next (runCommand 0x18#8 (helperOps parameters (enableProtectionPairs parameters)) s)

/-- R167 -/
def execDisableProtection (s : State) : Host.Outcome State Fault Refusal :=
  .next (runCommand 0x19#8 (helperOps parameters (disableProtectionPairs parameters)) s)

/-- R168 -/
def execEraseChip (s : State) : Host.Outcome State Fault Refusal :=
  .next (runCommand 0x1A#8 (helperOps parameters (eraseChipPairs parameters)) s)

end Sys2Proof.Machine
end

