-- ==== Sys2Proof/Machine/Reads.lean ====
section
/-! DEFINITION. EEPROM reads (42_eeprom_read.md R135-R139): micro-operation lists and meanings. -/

namespace Sys2Proof.Machine

/-- `read_byte` (R135): chip-enable before output-enable; write-enable is not driven before the sample. -/
def readByteOps (c : Config) (addr : Addr) : List Micro :=
  ioInputOps ++ setAddressOps addr ++
    [.set .ceN false, .set .oeN false, .wait c.tReadAccess, .sample] ++ set1Ops ++ [.respData]

/-- `read_page` (R137): one complete `read_byte` for each address of the page, ascending. -/
def readPageOps (c : Config) (page pageSize : BitVec 24) : List Micro :=
  (pageAddresses page pageSize).flatMap (readByteOps c)

/-- R135 -/
def execReadByte (addr : Addr) (s : State) : Host.Outcome State Fault Refusal :=
  .next (runCommand 0x15#8 (readByteOps parameters addr) s)

/-- R137. A page out of range is the error ADDRESS_RANGE, before any line moves (R138, R181); decode has already refused
it, so a step never gets here with one (log 11). -/
def execReadPage (page pageSize : BitVec 24) (s : State) : Host.Outcome State Fault Refusal :=
  if pageInRange page pageSize then .next (runCommand 0x16#8 (readPageOps parameters page pageSize) s)
  else .next (errorEntry .addressRange 0x16#8 s)

end Sys2Proof.Machine
end

