-- ==== Sys2Proof/Machine/Dispatch.lean ====
section
/-! DEFINITION. The dispatch: one arm per constructor of Instr (30_encoding.md R75). A command's own words have already
left CQ when its arm is taken (10_state.md R38). -/

namespace Sys2Proof.Machine

def exec (i : Instr) (s : State) : Host.Outcome State Fault Refusal :=
  match i with
  | .clear => Sys2Proof.Machine.execClear s
  | .shift => Sys2Proof.Machine.execShift s
  | .latch => Sys2Proof.Machine.execLatch s
  | .on => Sys2Proof.Machine.execOn s
  | .off => Sys2Proof.Machine.execOff s
  | .sendBit bit => Sys2Proof.Machine.execSendBit bit s
  | .sendByte value => Sys2Proof.Machine.execSendByte value s
  | .set1 => Sys2Proof.Machine.execSet1 s
  | .set0 => Sys2Proof.Machine.execSet0 s
  | .ioOutput => Sys2Proof.Machine.execIoOutput s
  | .ioInput => Sys2Proof.Machine.execIoInput s
  | .setAddress addr => Sys2Proof.Machine.execSetAddress addr s
  | .readByte addr => Sys2Proof.Machine.execReadByte addr s
  | .readPage page pageSize => Sys2Proof.Machine.execReadPage page pageSize s
  | .writeBytes addresses data => Sys2Proof.Machine.execWriteBytes addresses data s
  | .enableProtection => Sys2Proof.Machine.execEnableProtection s
  | .disableProtection => Sys2Proof.Machine.execDisableProtection s
  | .eraseChip => Sys2Proof.Machine.execEraseChip s

end Sys2Proof.Machine
end

