-- ==== Sys2Proof/Machine/Sequencer.lean ====
section
/-! DEFINITION. The step table (10_state.md R38): FETCH, ERROR and EXEC of the controller one micro-operation at a time,
the turns of the schedule, and which move `step` makes. -/

namespace Sys2Proof.Machine

/-- `expand(cmd)`, the micro-operation list of a command (R8, R38): a function of the command alone. -/
def expand (c : Config) (i : Instr) : List Micro :=
  match i with
  | .clear => clearOps
  | .shift => shiftOps
  | .latch => latchOps
  | .on => onOps
  | .off => offOps
  | .sendBit bit => sendBitOps bit
  | .sendByte value => sendByteOps value
  | .set1 => set1Ops
  | .set0 => set0Ops
  | .ioOutput => ioOutputOps
  | .ioInput => ioInputOps
  | .setAddress addr => setAddressOps addr
  | .readByte addr => readByteOps c addr
  | .readPage page pageSize => readPageOps c page pageSize
  | .writeBytes addresses data => writeBytesOps c addresses data
  | .enableProtection => helperOps c (enableProtectionPairs c)
  | .disableProtection => helperOps c (disableProtectionPairs c)
  | .eraseChip => helperOps c (eraseChipPairs c)

/-- The command's words leave CQ, as a whole (R34, R38). -/
def takeWords (n : Nat) (s : State) : State := { s with cq := s.cq.drop n }

/-- FETCH (R38): the command's words leave CQ, its list with its DONE response goes into RUN. -/
def fetch (i : Instr) (n : Nat) (s : State) : State :=
  { takeWords n s with run := expand parameters i ++ [.resp (doneWord (opcodeOf i))] }

/-- One step of the controller (R38): EXEC while a command is in progress; at a command boundary nothing while HALTED,
else FETCH, ERROR, or nothing while decode needs more words. -/
def controllerStep (s : State) : State :=
  match s.run with
  | m :: rest => perform m { s with run := rest }
  | [] =>
    if s.halted then s
    else
      match decode s.cq with
      | .ok i n => fetch i n s
      | .error code op => errorEntry code op s
      | .needMore => s

/-- `n` steps of the controller. -/
def controllerSteps : Nat → State → State
  | 0, s => s
  | n + 1, s => controllerSteps n (controllerStep s)

/-- A turn of the schedule (R38, R210; log 4). -/
def takeTurn (t : Turn) (s : State) : State :=
  match t with
  | .push w => hostPush w s
  | .pop => hostPop s
  | .controller => controllerStep s
  | .reset => hardReset s

/-- What `step` does next. -/
inductive Move where
  /-- a state of its own -/
  | state (s : State)
  /-- run a command, from the state in which its words have left CQ -/
  | command (i : Instr) (s : State)
  /-- stop -/
  | stop (r : Fault)

/-- The move a state makes. A pending turn is taken first. Without one the controller moves: EXEC of a command in
progress; the stop of a halted controller; a whole command, FETCH and all its EXEC steps in one, as R38 allows (log 1);
ERROR; or waiting for the host, which changes nothing (R38, D27; log 2). -/
def nextMove (s : State) : Move :=
  match s.turns with
  | t :: rest => .state (takeTurn t { s with turns := rest })
  | [] =>
    match s.run with
    | m :: rest => .state (perform m { s with run := rest })
    | [] =>
      if s.halted then .stop .halted
      else
        match decode s.cq with
        | .ok i n => .command i (takeWords n s)
        | .error code op => .state (errorEntry code op s)
        | .needMore => .state s

/-- The state in which the given words stand at the head of CQ, at a command boundary, with nothing pending before
them. -/
def withWords (words : List Word) (s : State) : State :=
  { s with cq := words ++ s.cq, run := [], halted := false, turns := [] }

end Sys2Proof.Machine
end

