-- ==== Sys2Proof/Machine/Step.lean ====
section
/-! DEFINITION. One step of the machine (10_state.md R38), and how a command is put where step fetches. -/

namespace Sys2Proof.Machine

/-- One step: the next move of the schedule or of the controller. -/
def step (s : State) : Host.Outcome State Fault Refusal :=
  match nextMove s with
  | .state t => .next t
  | .command i t => exec i t
  | .stop r => .fault r

/-- The state whose very next step fetches the instruction with the low bits `w` (log 13). -/
def State.withFetchWord (s : State) (nbits w : Nat) : State := withWords (tableWords nbits w) s

end Sys2Proof.Machine
end

