-- ==== Sys2Proof/Machine/IdealDevice.lean ====
section
/-! DEFINITION. The ideal device as a judge of a recorded history (20_memory.md R64): the general model records the bus
cycles, and a device model judges them afterwards. -/

namespace Sys2Proof.Machine

/-- A cycle or strobe the ideal device gives a meaning (R64). -/
def inDomain : BusCycle → Bool
  | .read _ _ => true
  | .strobe _ _ => true
  | .illFormedRead _ => false
  | .illFormedStrobe _ _ => false

/-- The ideal device runs through a history from the memory `m` (R64): a read must return MEM[addr], a strobe stores its
byte, an ill-formed cycle or strobe is outside its domain. It answers the memory at the end, or nothing where the history
is not one of the ideal device. -/
def judge : Memory → List BusCycle → Option Memory
  | m, [] => some m
  | m, .read a v :: rest => if memoryRead m a.toNat = v then judge m rest else none
  | m, .strobe a v :: rest => judge (memoryWrite m a.toNat v) rest
  | _, .illFormedRead _ :: _ => none
  | _, .illFormedStrobe _ _ :: _ => none

end Sys2Proof.Machine
end

