-- ==== Sys2Proof/Safety.lean ====
section
/-! DEFINITION. The terms claims are stated in: command boundaries, idle and clock levels, what a command's events and end
state are in closed form, observation (10_state.md R40), the phase names (10_state.md R39). -/

namespace Sys2Proof.Safety

open Sys2Proof.Machine

/-! ## Conditions on a state -/

/-- `step` fetches from this state: no turn is pending, no command is in progress, HALTED = 0 (10_state.md R38). -/
abbrev Ready (s : State) : Prop := s.turns = [] ∧ s.run = [] ∧ s.halted = false

/-- SRCLK = RCLK = 0, so that the next `SET(SRCLK,1)` and `SET(RCLK,1)` are 0-to-1 steps (R41). -/
abbrev ClocksLow (s : State) : Prop := s.srclk = false ∧ s.rclk = false

/-- SRCLK = 0, RCLK = 0, CLR_n = 1: the levels at every command boundary (R41). -/
abbrev ClocksIdle (s : State) : Prop := s.srclk = false ∧ s.rclk = false ∧ s.clrN = true

/-- CE_n = OE_n = WE_n = 1, the idle or deselect state (00_scope.md R12, R120). -/
abbrev Deselected (s : State) : Prop := s.ceN = true ∧ s.oeN = true ∧ s.weN = true

/-- The state once the command in progress, if there is one, has run to its end. -/
def runOut (s : State) : State := performAll s.run s

/-- The clock invariant for every state, also inside a command: once the command in progress has run to its end the clock
lines are idle (R41), and a halted controller stands at a command boundary (60_exceptions.md R182, R184). -/
abbrev ClockInvariant (s : State) : Prop := ClocksIdle (runOut s) ∧ (s.halted = true → s.run = [])

/-- The composite EEPROM operations, those that make bus cycles of their own (R50). -/
abbrev Composite (i : Instr) : Prop :=
  match i with
  | .readByte _ | .readPage _ _ | .writeBytes _ _ | .enableProtection | .disableProtection | .eraseChip => True
  | .clear | .shift | .latch | .on | .off | .sendBit _ | .sendByte _ | .set1 | .set0 | .ioOutput | .ioInput
  | .setAddress _ => False

/-- The seven operations of the shift register (40_shift_register.md R108). -/
abbrev ShiftRegisterFamily (i : Instr) : Prop :=
  match i with
  | .clear | .shift | .latch | .on | .off | .sendBit _ | .sendByte _ => True
  | .set1 | .set0 | .ioOutput | .ioInput | .setAddress _ | .readByte _ | .readPage _ _ | .writeBytes _ _
  | .enableProtection | .disableProtection | .eraseChip => False

/-! ## Sequences of commands -/

/-- Run commands one after the other, as far as they answer a next state. -/
def execAll : List Instr → State → Host.Outcome State Fault Refusal
  | [], s => .next s
  | i :: is, s =>
    match exec i s with
    | .next t => execAll is t
    | .fault r => .fault r
    | .refused r => .refused r

/-! ## Events -/

/-- The event of a micro-operation when the byte last sampled is `v` (00_scope.md R8). Only `SAMPLE` and
`RESP(DATA(DIN))` depend on it. -/
def eventOf (v : Byte) : Micro → Event
  | .set l x => .set l x
  | .set3 x => .set3 x
  | .dir m => .dir m
  | .data b => .data b
  | .wait t => .wait t
  | .sample => .sample v
  | .respData => .resp (dataWord v)
  | .resp w => .resp w

/-- The events of a list of micro-operations in which every sampled byte is `v`. -/
def eventsOf (v : Byte) (ms : List Micro) : List Event := ms.map (eventOf v)

/-- The minimum total wait of a list of micro-operations, in nanoseconds (70_reset_and_hazards.md R230). -/
def totalWait : List Micro → Nat
  | [] => 0
  | .wait t :: ms => t + totalWait ms
  | .set _ _ :: ms | .set3 _ :: ms | .dir _ :: ms | .data _ :: ms | .sample :: ms | .respData :: ms | .resp _ :: ms =>
    totalWait ms

/-! ## Closed forms of the end states of the composite operations -/

/-- The byte a well-formed read cycle returns when `k` samples come before it: MEM at the address for the ideal device, else
the free value of that draw (20_memory.md R51, R64). -/
def readAnswer (s : State) (addr : Addr) (k : Nat) : Byte :=
  match s.device with
  | .ideal => memoryRead s.mem addr.toNat
  | .oracle => Config.freeByte (s.draws + k)
  | .outside => Config.freeByte (s.draws + k)

/-- The addresses of a page, each with the byte its read returns, in ascending order (42_eeprom_read.md R137). -/
def pageAnswers (s : State) (page pageSize : BitVec 24) : List (Addr × Byte) :=
  (List.range pageSize.toNat).map (fun off =>
    (BitVec.ofNat 24 (page.toNat * pageSize.toNat + off),
      readAnswer s (BitVec.ofNat 24 (page.toNat * pageSize.toNat + off)) off))

/-- The shift-register part of a state after the addresses of a list have been set one after the other: it is that of the
last address (41_eeprom_line_control.md R124, R125), and unchanged for an empty list. -/
def afterAddresses (addresses : List Addr) (s : State) : State :=
  match addresses.getLast? with
  | none => s
  | some a => { s with ser := a.getLsbD 0, srclk := false, rclk := false, clrN := true, sc := a, pr := a }

/-- MEM after well-formed strobes for pairs, in order (20_memory.md R64). -/
def afterWrites (ps : List (Addr × Byte)) (m : Memory) : Memory :=
  ps.foldl (fun m p => memoryWrite m p.1.toNat p.2) m

/-- MEM of a state after well-formed strobes for pairs: only the ideal device stores them (20_memory.md R64). -/
def storedBy (ps : List (Addr × Byte)) (s : State) : Memory :=
  match s.device with
  | .ideal => afterWrites ps s.mem
  | .oracle => s.mem
  | .outside => s.mem

/-- The ill-formed strobes of `n` pairs: what each presents is free (20_memory.md R52). -/
def illFormedStrobes (s : State) (n : Nat) : List BusCycle :=
  (List.range n).map (fun k =>
    .illFormedStrobe (Config.freeAddress (s.draws + k)) (Config.freeByte (s.draws + k)))

/-- The state after a read page whose answers are `answers`, less its responses and events
(42_eeprom_read.md R135, R137). -/
def afterReads (answers : List (Addr × Byte)) (s : State) : State :=
  match answers.getLast? with
  | none => s
  | some p =>
    { afterAddresses (answers.map Prod.fst) s with
      dir := .input
      ceN := true
      oeN := true
      weN := true
      din := p.2
      history := s.history ++ answers.map (fun q => .read q.1 q.2)
      draws := s.draws + answers.length }

/-- The state after a `write_bytes` of pairs with the shift register's outputs on, less its responses and events
(43_eeprom_write.md R150, R152). -/
def afterWriteBatch (ps : List (Addr × Byte)) (s : State) : State :=
  { afterAddresses (ps.map Prod.fst) s with
    dir := .output
    dout := (ps.getLast?.map Prod.snd).getD s.dout
    ceN := true
    oeN := true
    weN := true
    history := s.history ++ ps.map (fun p => .strobe p.1 p.2)
    mem := storedBy ps s }

/-- The state with a command's events and its DONE response appended: `data` are the DATA responses before it
(30_encoding.md R78). -/
def answered (op : Byte) (data : List Byte) (events : List Event) (s : State) : State :=
  { s with
    rq := s.rq ++ data.map dataWord ++ [doneWord op]
    trace := s.trace ++ events ++ [.resp (doneWord op)] }

/-! ## Observation -/

/-- Two states are observably equal when their TRACEs are (92_eei_decisions.md D20). -/
abbrev ObservablyEqual (s t : State) : Prop := s.trace = t.trace

/-- The level of a line latch. -/
def level (s : State) : Line → Level
  | .ser => s.ser
  | .srclk => s.srclk
  | .rclk => s.rclk
  | .clrN => s.clrN
  | .srOeN => s.srOeN
  | .ceN => s.ceN
  | .oeN => s.oeN
  | .weN => s.weN

/-- The levels after an event. -/
def levelsAfter (levels : Line → Level) : Event → Line → Level
  | .set l v => fun k => if k = l then v else levels k
  | .set3 v => fun k => if k = .ceN ∨ k = .oeN ∨ k = .weN then v else levels k
  | .dir _ | .data _ | .wait _ | .sample _ | .resp _ => levels

/-- The waveform of a trace from given line levels: the trace with its no-change `Set` events removed (R40). -/
def waveform (levels : Line → Level) : List Event → List Event
  | [] => []
  | e :: es =>
    match e with
    | .set l v =>
      if levels l = v then waveform levels es else e :: waveform (levelsAfter levels e) es
    | .set3 _ | .dir _ | .data _ | .wait _ | .sample _ | .resp _ => e :: waveform (levelsAfter levels e) es

/-! ## The phase names of R39, for claims only: nothing stores them and no rule reads them -/

/-- The five names (R39). -/
inductive Phase where
  | idle
  | readSetup
  | readActive
  | writeSetup
  | writeActive
  deriving DecidableEq, Repr

/-- The phase inside a `read_byte` after `k` of its 83 micro-operations (R39): read-setup from `DIR(IN)` to the latch,
read-active from `SET(CE_n,0)` up to the `SET3(1)`. -/
def readPhase (k : Nat) : Option Phase :=
  if 1 ≤ k ∧ k ≤ 77 then some .readSetup
  else if 78 ≤ k ∧ k ≤ 81 then some .readActive
  else none

/-- The phase inside a `write_bytes` of `n` pairs after `k` of its micro-operations (R39): write-setup from `DIR(OUT)` up to
a pair's `SET(CE_n,0)` and again from the next pair's `SET(CE_n,1)`, write-active from a pair's `SET(WE_n,0)` up to the
next `SET(CE_n,1)` or the final `SET3(1)`. -/
def writePhase (n k : Nat) : Option Phase :=
  if k = 0 ∨ 4 + 83 * n < k then none
  else if k ≤ 4 then some .writeSetup
  else
    let p := (k - 5) % 83 + 1
    if p = 83 ∨ (p ≤ 76 ∧ 83 < k - 4) then some .writeActive
    else if p ≤ 81 then some .writeSetup
    else none

end Sys2Proof.Safety
end

