-- ==== Sys2Proof/Certificates/Slice0/Obligations.lean ====
section
/-! DEFINITION. The statements for the provers: what the numbered rules of spec/ say the machine does. -/

open Sys2Proof Sys2Proof.Machine Sys2Proof.Safety

/-! ## Reset -/

/-- R44, R211, R212: the reset values the spec gives, for every value of the four registers it leaves unspecified; the
power-on state is one of these states. -/
def Obligations.ResetStateHasTheSpecValues : Prop :=
  ∀ (sc pr : Addr) (dout din : Byte), ∀ s, s = State.resetWith sc pr dout din →
    (s.ser = false ∧ s.srclk = false ∧ s.rclk = false ∧ s.clrN = true ∧ s.srOeN = false ∧
      s.ceN = true ∧ s.oeN = true ∧ s.weN = true ∧ s.dir = .input ∧
      s.cq = [] ∧ s.rq = [] ∧ s.halted = false ∧ s.run = [] ∧ s.trace = [] ∧
      s.sc = sc ∧ s.pr = pr ∧ s.dout = dout ∧ s.din = din) ∧
    addressBus s = some pr ∧
    State.reset = State.resetWith (Config.unspecChain 0) (Config.unspecOutput 0) (Config.unspecDout 0)
      (Config.unspecDin 0)

/-- R41, R44: the reset state meets the clock invariant and its memory is canonical. -/
def Obligations.ResetMeetsTheInvariants : Prop :=
  ClockInvariant State.reset ∧ Memory.wf State.reset.mem = true ∧
    ∀ (sc pr : Addr) (dout din : Byte), ClockInvariant (State.resetWith sc pr dout din)

/-- R210, R211: the external reset, at any time and also inside a command, gives the controller its reset values, abandons
the command, empties the queues and TRACE; SC, PR, DOUT and DIN become free values. The chip and the host keep theirs
(log 17, the model's choice). -/
def Obligations.ExternalResetGivesTheResetState : Prop :=
  ∀ (s : State) (rest : List Turn), s.turns = .reset :: rest →
    ∃ (sc pr : Addr) (dout din : Byte), step s = .next
      { State.resetWith sc pr dout din with
        history := s.history, device := s.device, mem := s.mem, draws := s.draws + 1, turns := rest,
        received := s.received }

/-! ## The steps of the machine -/

/-- At a command boundary with no turn pending, when decode reads a command of `n` words, `step` is `exec` of it from the
state in which these words have left CQ: FETCH and all EXEC steps in one step. The table of R38 makes FETCH a step of its
own and says only that a model may fuse them; that this step is fused is the model's choice (log 1). -/
def Obligations.StepRunsTheDecodedCommand : Prop :=
  ∀ (s : State) (i : Instr) (n : Nat), Ready s → decode s.cq = .ok i n →
    step s = exec i { s with cq := s.cq.drop n }

/-- R38: the controller's rows of the step table. A controller turn of the schedule (log 4, the model's choice) is
`controllerStep` of the state with the turn removed: EXEC performs the first micro-operation of RUN, FETCH takes the
command's words from CQ and puts its list with its DONE response into RUN, ERROR is the error entry of R184, and where no
row is enabled (decode needs more words; HALTED = 1 with RUN empty) only the turn goes (log 4). With no turn pending EXEC is
what `step` does inside a command. That EXEC has no HALTED condition is DEDUCED (log 3). -/
def Obligations.ControllerTurnTakesOneStepOfTheTable : Prop :=
  (∀ (s : State) (m : Micro) (rest : List Micro), s.turns = [] → s.run = m :: rest →
    step s = .next (perform m { s with run := rest })) ∧
  ∀ (s : State) (turns : List Turn), s.turns = .controller :: turns →
    step s = .next (controllerStep { s with turns := turns }) ∧
    (∀ (m : Micro) (rest : List Micro), s.run = m :: rest →
      step s = .next (perform m { s with turns := turns, run := rest })) ∧
    (∀ (i : Instr) (n : Nat), s.run = [] → s.halted = false → decode s.cq = .ok i n →
      step s = .next
        { s with
          turns := turns
          cq := s.cq.drop n
          run := expand parameters i ++ [.resp (0x80000000#32 ||| (opcodeOf i).setWidth 32)] }) ∧
    (∀ (code : ErrorCode) (op : Byte), s.run = [] → s.halted = false → decode s.cq = .error code op →
      step s = .next
        { s with
          turns := turns
          rq := s.rq ++ [0xEE000000#32 ||| ((errorByte code).setWidth 32 <<< 8) ||| op.setWidth 32]
          trace := s.trace ++ [.resp (0xEE000000#32 ||| ((errorByte code).setWidth 32 <<< 8) ||| op.setWidth 32)]
          halted := true }) ∧
    (s.run = [] → s.halted = false → decode s.cq = .needMore → step s = .next { s with turns := turns }) ∧
    (s.run = [] → s.halted = true → step s = .next { s with turns := turns })

/-- R184: the error entry pushes one ERR word with its event and sets HALTED, and nothing else changes. -/
def Obligations.ErrorEntryPushesErrAndHalts : Prop :=
  ∀ (s : State) (code : ErrorCode) (op : Byte), Ready s → decode s.cq = .error code op →
    step s = .next
      { s with
        rq := s.rq ++ [0xEE000000#32 ||| ((errorByte code).setWidth 32 <<< 8) ||| op.setWidth 32]
        trace := s.trace ++ [.resp (0xEE000000#32 ||| ((errorByte code).setWidth 32 <<< 8) ||| op.setWidth 32)]
        halted := true }

/-- R36: HALTED is set by the error entry alone, cleared by reset alone, and while it is 1 the controller takes no step
(in every state that meets the invariant, which says that a halted controller stands at a command boundary); its reset
value is 0. -/
def Obligations.HaltedIsStickyAndSetByErrorsOnly : Prop :=
  (∀ s t : State, step s = .next t → s.halted = false → t.halted = true →
    s.run = [] ∧ ∃ code op, decode s.cq = .error code op) ∧
  (∀ s t : State, step s = .next t → s.halted = true → t.halted = false → ∃ rest, s.turns = .reset :: rest) ∧
  (∀ s : State, ClockInvariant s → s.halted = true → controllerStep s = s) ∧
  State.reset.halted = false

/-- R36, R185 (log 3, the model's choice): a halted controller with nothing pending is stuck; `step` answers the fault
`halted`, and answers it nowhere else. -/
def Obligations.StepStopsExactlyWhenHalted : Prop :=
  ∀ (s : State) (r : Fault),
    step s = .fault r ↔ (r = .halted ∧ s.turns = [] ∧ s.run = [] ∧ s.halted = true)

/-- R38, R182, R212 (log 2, the model's choice): while decode needs more words the controller waits and nothing changes, as
it does after reset, for word 0. -/
def Obligations.StepWaitsForMissingWords : Prop :=
  (∀ s : State, Ready s → decode s.cq = .needMore → step s = .next s) ∧
  (∀ (sc pr : Addr) (dout din : Byte),
    step (State.resetWith sc pr dout din) = .next (State.resetWith sc pr dout din))

/-- R34, R35, R38: PUSH appends a word to CQ, POP takes the head of RQ to the host; a POP of an empty RQ does nothing
(log 4). -/
def Obligations.HostTurnsPushAndPop : Prop :=
  ∀ (s : State) (rest : List Turn),
    (∀ w, s.turns = .push w :: rest → step s = .next { s with turns := rest, cq := s.cq ++ [w] }) ∧
    (∀ w ws, s.turns = .pop :: rest → s.rq = w :: ws →
      step s = .next { s with turns := rest, rq := ws, received := s.received ++ [w] }) ∧
    (s.turns = .pop :: rest → s.rq = [] → step s = .next { s with turns := rest })

/-- R38: the fused command step (fusing is log 1) is FETCH and the EXEC steps of the command one after the other: as many controller steps as
the command has micro-operations, one more for FETCH and one for the DONE response, end in the state `step` answers, at a
command boundary. -/
def Obligations.CommandStepIsItsMicroSteps : Prop :=
  ∀ (s : State) (i : Instr) (n : Nat), Ready s → decode s.cq = .ok i n →
    ∃ t, step s = .next t ∧ t.run = [] ∧ controllerSteps ((expand parameters i).length + 2) s = t

/-- R38, R63, R77: no host step changes what the controller does once a command is fetched: PUSH and an enabled POP commute
with every controller step inside a command and with a whole command. At a command boundary too, a word pushed after a
verdict has been reached does not change the controller's step. -/
def Obligations.HostStepsDoNotDisturbCommands : Prop :=
  (∀ (w : Word) (s : State), s.run ≠ [] → controllerStep (hostPush w s) = hostPush w (controllerStep s)) ∧
  (∀ s : State, s.run ≠ [] → s.rq ≠ [] → controllerStep (hostPop s) = hostPop (controllerStep s)) ∧
  (∀ (w : Word) (i : Instr) (s : State), ∃ t, exec i s = .next t ∧ exec i (hostPush w s) = .next (hostPush w t)) ∧
  (∀ (i : Instr) (s : State), s.rq ≠ [] → ∃ t, exec i s = .next t ∧ exec i (hostPop s) = .next (hostPop t)) ∧
  (∀ (w : Word) (s : State), decode s.cq ≠ .needMore →
    controllerStep (hostPush w s) = hostPush w (controllerStep s))

/-! ## Encoding -/

/-- R79: decoding the encoding of a well-formed command gives the command back, with its length, whatever follows it. -/
def Obligations.DecodeOfEncode : Prop :=
  ∀ (i : Instr) (rest : List Word), i.WellFormed →
    decode (encode i ++ rest) = .ok i (encode i).length ∧ (encode i).length = commandLength i

/-- R79: words with the verdict Ok are the encoding of a well-formed command. -/
def Obligations.EncodeOfDecode : Prop :=
  ∀ (ws : List Word) (i : Instr) (n : Nat), decode ws = .ok i n →
    i.WellFormed ∧ n ≤ ws.length ∧ encode i = ws.take n

/-- R77: appending words never changes a verdict of Ok or Error. -/
def Obligations.DecodeVerdictIsStable : Prop :=
  ∀ ws more : List Word, decode ws ≠ .needMore → decode (ws ++ more) = decode ws

/-- R72, R75: words written out from the spec's formats decode to the commands they stand for. -/
def Obligations.SpecWordsDecode : Prop :=
  decode [0x01000000#32] = .ok .clear 1 ∧
  decode [0x06000001#32] = .ok (.sendBit true) 1 ∧
  decode [0x07000012#32] = .ok (.sendByte 0x12#8) 1 ∧
  decode [0x14123456#32] = .ok (.setAddress 0x123456#24) 1 ∧
  decode [0x15FFFFFF#32] = .ok (.readByte 0xFFFFFF#24) 1 ∧
  decode [0x16000002#32, 0x00000010#32] = .ok (.readPage 2#24 16#24) 2 ∧
  decode [0x17000001#32, 0x00000001#32, 0x00000010#32, 0x000000FF#32] = .ok (.writeBytes [0x10#24] [0xFF#8]) 4 ∧
  decode [0x1A000000#32] = .ok .eraseChip 1

/-- R76, R181: an `op` outside the 18 of R75 is ILLEGAL_OPCODE, whatever else the word and the queue hold. -/
def Obligations.UnknownOpcodesAreIllegal : Prop :=
  ∀ (w : Word) (ws : List Word), opField w ∉ opcodes → decode (w :: ws) = .error .illegalOpcode (opField w)

/-- R76, R77: a nonzero must-be-zero field of word 0 (formats Z, B1, B8) or of word 1 (formats PG, WB) is
RESERVED_NONZERO. -/
def Obligations.ReservedFieldsAreRefused : Prop :=
  (∀ (w : Word) (ws : List Word),
    opField w ∈ [0x01#8, 0x02#8, 0x03#8, 0x04#8, 0x05#8, 0x10#8, 0x11#8, 0x12#8, 0x13#8, 0x18#8, 0x19#8, 0x1A#8] →
    lowField w ≠ 0#24 → decode (w :: ws) = .error .reservedNonzero (opField w)) ∧
  (∀ (w : Word) (ws : List Word), opField w = 0x06#8 → w.extractLsb' 1 23 ≠ 0#23 →
    decode (w :: ws) = .error .reservedNonzero 0x06#8) ∧
  (∀ (w : Word) (ws : List Word), opField w = 0x07#8 → w.extractLsb' 8 16 ≠ 0#16 →
    decode (w :: ws) = .error .reservedNonzero 0x07#8) ∧
  (∀ (w w1 : Word) (ws : List Word), opField w ∈ [0x16#8, 0x17#8] → highField w1 ≠ 0#8 →
    decode (w :: w1 :: ws) = .error .reservedNonzero (opField w))

/-- R77, R138: `read_page` with both words well-formed is ADDRESS_RANGE exactly when its last address does not fit 24 bits,
computed without wrap-around. -/
def Obligations.ReadPageRangeIsChecked : Prop :=
  ∀ (page pageSize : BitVec 24) (ws : List Word),
    (decode ((0x16#8 ++ page) :: (0x00#8 ++ pageSize) :: ws) = .error .addressRange 0x16#8 ↔
      pageSize.toNat > 0 ∧ page.toNat * pageSize.toNat + pageSize.toNat > 2 ^ 24) ∧
    (decode ((0x16#8 ++ page) :: (0x00#8 ++ pageSize) :: ws) = .ok (.readPage page pageSize) 2 ↔
      pageSize.toNat = 0 ∨ page.toNat * pageSize.toNat + pageSize.toNat ≤ 2 ^ 24)

/-- R212, R213: each well-formed command, its words standing whole in CQ, runs as the first command after reset. That one
step runs it whole is the model's choice (log 1), and so is placing its words in CQ at once instead of by one PUSH each
(log 13). -/
def Obligations.EncodedCommandRunsFromReset : Prop :=
  ∀ (sc pr : Addr) (dout din : Byte) (i : Instr), i.WellFormed →
    step { State.resetWith sc pr dout din with cq := encode i } = exec i (State.resetWith sc pr dout din)

/-! ## Shift-register operations -/

/-- R100: `clear`. -/
def Obligations.ClearZeroesTheChain : Prop :=
  (∀ ws, decode (0x01000000#32 :: ws) = .ok .clear 1) ∧
  (∀ w ws, opField w = 0x01#8 → lowField w ≠ 0#24 → decode (w :: ws) = .error .reservedNonzero 0x01#8) ∧
  expand parameters .clear = [.set .clrN false, .set .clrN true] ∧
  (∀ s, (perform (.set .clrN false) s).sc = 0#24) ∧
  ∀ s : State, exec .clear s = .next
    (answered 0x01#8 [] [.set .clrN false, .set .clrN true] { s with clrN := true, sc := 0#24 })

/-- R101, R22: `shift` moves the chain one stage, SER into stage 0, from SRCLK = 0 and CLR_n = 1. -/
def Obligations.ShiftMovesTheChain : Prop :=
  (∀ ws, decode (0x02000000#32 :: ws) = .ok .shift 1) ∧
  (∀ w ws, opField w = 0x02#8 → lowField w ≠ 0#24 → decode (w :: ws) = .error .reservedNonzero 0x02#8) ∧
  expand parameters .shift = [.set .srclk true, .set .srclk false] ∧
  (∀ s : State, s.srclk = false → s.clrN = true → exec .shift s = .next
    (answered 0x02#8 [] [.set .srclk true, .set .srclk false]
      { s with srclk := false, sc := (s.sc <<< 1) ||| (BitVec.ofBool s.ser).setWidth 24 }))

/-- R22: without a 0-to-1 step of SRCLK nothing shifts, and a shift under CLR_n = 0 leaves the chain 0. -/
def Obligations.ShiftNeedsAnEdgeAndClearHigh : Prop :=
  (∀ s : State, s.srclk = true → exec .shift s = .next
    (answered 0x02#8 [] [.set .srclk true, .set .srclk false] { s with srclk := false })) ∧
  (∀ s : State, s.srclk = false → s.clrN = false → exec .shift s = .next
    (answered 0x02#8 [] [.set .srclk true, .set .srclk false] { s with srclk := false, sc := 0#24 }))

/-- R102, R23: `latch` copies the whole chain into PR, and SC keeps its contents. -/
def Obligations.LatchCopiesTheChain : Prop :=
  (∀ ws, decode (0x03000000#32 :: ws) = .ok .latch 1) ∧
  (∀ w ws, opField w = 0x03#8 → lowField w ≠ 0#24 → decode (w :: ws) = .error .reservedNonzero 0x03#8) ∧
  expand parameters .latch = [.set .rclk true, .set .rclk false] ∧
  (∀ s : State, s.rclk = false → exec .latch s = .next
    (answered 0x03#8 [] [.set .rclk true, .set .rclk false] { s with rclk := false, pr := s.sc })) ∧
  (∀ s : State, s.rclk = true → exec .latch s = .next
    (answered 0x03#8 [] [.set .rclk true, .set .rclk false] { s with rclk := false }))

/-- R103: `on` drives SR_OE_n to 0, and the address bus then carries PR. -/
def Obligations.OnEnablesTheAddressBus : Prop :=
  (∀ ws, decode (0x04000000#32 :: ws) = .ok .on 1) ∧
  (∀ w ws, opField w = 0x04#8 → lowField w ≠ 0#24 → decode (w :: ws) = .error .reservedNonzero 0x04#8) ∧
  expand parameters .on = [.set .srOeN false] ∧
  ∀ s : State, ∃ t, exec .on s = .next t ∧
    t = answered 0x04#8 [] [.set .srOeN false] { s with srOeN := false } ∧ addressBus t = some s.pr

/-- R104: `off` drives SR_OE_n to 1, the address bus is undriven, `off` twice leaves it at 1 with two events, and every
read cycle and strobe is ill-formed while SR_OE_n = 1. -/
def Obligations.OffReleasesTheAddressBus : Prop :=
  (∀ ws, decode (0x05000000#32 :: ws) = .ok .off 1) ∧
  (∀ w ws, opField w = 0x05#8 → lowField w ≠ 0#24 → decode (w :: ws) = .error .reservedNonzero 0x05#8) ∧
  expand parameters .off = [.set .srOeN true] ∧
  (∀ s : State, ∃ t, exec .off s = .next t ∧
    t = answered 0x05#8 [] [.set .srOeN true] { s with srOeN := true } ∧ addressBus t = none ∧
    readWellFormed t = false ∧ strobeWellFormed t = false) ∧
  (∀ s : State, execAll [.off, .off] s = .next
    { s with
      srOeN := true
      rq := s.rq ++ [0x80000005#32, 0x80000005#32]
      trace := s.trace ++ [.set .srOeN true, .resp 0x80000005#32, .set .srOeN true, .resp 0x80000005#32] })

/-- R105: `send_bit` puts its bit on SER and shifts it into stage 0. -/
def Obligations.SendBitShiftsItsBitIn : Prop :=
  (∀ ws, decode (0x06000000#32 :: ws) = .ok (.sendBit false) 1) ∧
  (∀ ws, decode (0x06000001#32 :: ws) = .ok (.sendBit true) 1) ∧
  (∀ w ws, opField w = 0x06#8 → w.extractLsb' 1 23 ≠ 0#23 → decode (w :: ws) = .error .reservedNonzero 0x06#8) ∧
  (∀ bit, expand parameters (.sendBit bit) = [.set .ser bit, .set .srclk true, .set .srclk false]) ∧
  ∀ (bit : Bool) (s : State), s.srclk = false → s.clrN = true → exec (.sendBit bit) s = .next
    (answered 0x06#8 [] [.set .ser bit, .set .srclk true, .set .srclk false]
      { s with ser := bit, srclk := false, sc := (s.sc <<< 1) ||| (BitVec.ofBool bit).setWidth 24 })

/-- R106, R227: the list of `send_byte` is `send_bit` of bit 0, 1, .. 7 in that order and one `latch`; it shifts its byte in
bit 0 first: SC moves up by 8 stages with rev8 of the byte in stages 7..0, and PR is the new SC. -/
def Obligations.SendByteReversesItsByte : Prop :=
  (∀ value : Byte, expand parameters (.sendByte value) =
    ([0, 1, 2, 3, 4, 5, 6, 7] : List Nat).flatMap (fun i => expand parameters (.sendBit (value.getLsbD i))) ++
      expand parameters .latch) ∧
  ∀ (value : Byte) (s : State), ClocksIdle s → exec (.sendByte value) s = .next
    (answered 0x07#8 [] (eventsOf 0#8 (expand parameters (.sendByte value)))
      { s with
        ser := value.getLsbD 7
        sc := (s.sc <<< 8) ||| (rev8 value).setWidth 24
        pr := (s.sc <<< 8) ||| (rev8 value).setWidth 24 })

/-- R107: after `send_bit(b_1); ...; send_bit(b_n)` the j-th bit sent is in stage n-j, older contents move up by n
stages, and of more than 24 bits only the last 24 remain. -/
def Obligations.RepeatedSendBitFillsTheChain : Prop :=
  ∀ (bits : List Bool) (s : State), ClocksIdle s → ∃ t, execAll (bits.map .sendBit) s = .next t ∧
    ClocksIdle t ∧ t.pr = s.pr ∧
    (∀ j, 1 ≤ j → j ≤ bits.length → bits.length - j < 24 →
      bits[j - 1]? = some (t.sc.getLsbD (bits.length - j))) ∧
    (∀ k, k + bits.length < 24 → t.sc.getLsbD (k + bits.length) = s.sc.getLsbD k)

/-- R226: three `send_byte`s after a `clear` load each byte reversed, the first in stages 23:16. -/
def Obligations.ThreeSendBytesLoadThreeReversedBytes : Prop :=
  ∀ (b1 b2 b3 : Byte) (s : State), ClocksLow s →
    ∃ t, execAll [.clear, .sendByte b1, .sendByte b2, .sendByte b3] s = .next t ∧
      t.sc = rev8 b1 ++ rev8 b2 ++ rev8 b3 ∧ t.pr = rev8 b1 ++ rev8 b2 ++ rev8 b3

/-- R108: the seven shift-register operations write only SER, SRCLK, RCLK, CLR_n, SR_OE_n, SC, PR, RQ and TRACE, contain
no wait, and answer one DONE word, from every state. -/
def Obligations.ShiftRegisterFamilyFrame : Prop :=
  ∀ (i : Instr) (s : State), ShiftRegisterFamily i →
    totalWait (expand parameters i) = 0 ∧
    ∃ t, exec i s = .next t ∧
      { t with
        ser := s.ser, srclk := s.srclk, rclk := s.rclk, clrN := s.clrN, srOeN := s.srOeN, sc := s.sc, pr := s.pr,
        rq := s.rq, trace := s.trace } = s ∧
      t.rq = s.rq ++ [doneWord (opcodeOf i)] ∧
      t.trace = s.trace ++ eventsOf 0#8 (expand parameters i) ++ [.resp (doneWord (opcodeOf i))]

/-! ## Line control -/

/-- R120: `set_1` drives CE_n, OE_n and WE_n to 1 in one step, whatever they were; no strobe. -/
def Obligations.SetOneDeselects : Prop :=
  (∀ ws, decode (0x10000000#32 :: ws) = .ok .set1 1) ∧
  (∀ w ws, opField w = 0x10#8 → lowField w ≠ 0#24 → decode (w :: ws) = .error .reservedNonzero 0x10#8) ∧
  expand parameters .set1 = [.set3 true] ∧
  ∀ s : State, exec .set1 s = .next
    (answered 0x10#8 [] [.set3 true] { s with ceN := true, oeN := true, weN := true })

/-- R121, R52: `set_0` drives the three lines to 0 in one step; from a state in which CE_n and WE_n were not both 0 it is
an ill-formed write strobe, which presents free values; otherwise it is no strobe. -/
def Obligations.SetZeroSelectsAndStrobes : Prop :=
  (∀ s : State, s.ceN = true ∨ s.weN = true → exec .set0 s = .next
    (answered 0x11#8 [] [.set3 false]
      { s with
        ceN := false, oeN := false, weN := false
        history := s.history ++ [.illFormedStrobe (Config.freeAddress s.draws) (Config.freeByte s.draws)]
        draws := s.draws + 1
        device := if s.device = .ideal then .outside else s.device })) ∧
  (∀ s : State, s.ceN = false → s.weN = false → exec .set0 s = .next
    (answered 0x11#8 [] [.set3 false] { s with ceN := false, oeN := false, weN := false }))

/-- R122: `io_output` turns the data lines to output and drives the old DOUT; with CE_n = OE_n = 0 that is contention. -/
def Obligations.IoOutputDrivesTheOldByte : Prop :=
  (∀ ws, decode (0x12000000#32 :: ws) = .ok .ioOutput 1) ∧
  (∀ w ws, opField w = 0x12#8 → lowField w ≠ 0#24 → decode (w :: ws) = .error .reservedNonzero 0x12#8) ∧
  expand parameters .ioOutput = [.dir .output] ∧
  ∀ s : State, ∃ t, exec .ioOutput s = .next t ∧
    t = answered 0x12#8 [] [.dir .output] { s with dir := .output } ∧
    dataDriven t = some s.dout ∧
    (s.ceN = false → s.oeN = false → contention t = true)

/-- R123: `io_input` turns the data lines to input; the controller drives none of them and DOUT keeps its value. -/
def Obligations.IoInputReleasesTheLines : Prop :=
  (∀ ws, decode (0x13000000#32 :: ws) = .ok .ioInput 1) ∧
  (∀ w ws, opField w = 0x13#8 → lowField w ≠ 0#24 → decode (w :: ws) = .error .reservedNonzero 0x13#8) ∧
  expand parameters .ioInput = [.dir .input] ∧
  ∀ s : State, ∃ t, exec .ioInput s = .next t ∧
    t = answered 0x13#8 [] [.dir .input] { s with dir := .input } ∧ dataDriven t = none ∧ t.dout = s.dout

/-- R124, R125, R227: the list of `set_address(a)` is `clear`, `send_bit` of bit 23, 22, .. 0 in that order, and one
`latch`; it ends with SC = PR = a and SER = a[0], whatever SC and PR were, and moves no control line, no data line and makes
no bus cycle. -/
def Obligations.SetAddressLoadsTheAddress : Prop :=
  (∀ a : Addr, expand parameters (.setAddress a) =
    expand parameters .clear ++
      (List.range 24).reverse.flatMap (fun i => expand parameters (.sendBit (a.getLsbD i))) ++
      expand parameters .latch) ∧
  ∀ (a : Addr) (s : State), ClocksLow s → exec (.setAddress a) s = .next
    (answered 0x14#8 [] (eventsOf 0#8 (expand parameters (.setAddress a)))
      { s with ser := a.getLsbD 0, srclk := false, rclk := false, clrN := true, sc := a, pr := a })

/-- R124, R67: the address bus keeps the old PR through the clear and the 24 shifts of `set_address`, 74
micro-operations, and takes the new address at the 75th. -/
def Obligations.AddressBusChangesOnceInSetAddress : Prop :=
  ∀ (a : Addr) (s : State), ClocksLow s →
    (∀ k, k ≤ 74 → (performAll ((expand parameters (.setAddress a)).take k) s).pr = s.pr) ∧
    (∀ k, 75 ≤ k → (performAll ((expand parameters (.setAddress a)).take k) s).pr = a)

/-! ## Reads -/

/-- R135, R136, R51: the list of `read_byte` is that of the rule, in its order, and its events are those of R136; from
WE_n = 1, SR_OE_n = 0 and low clock lines it is one well-formed read cycle at its address: it answers DATA with the chip's
byte, then DONE, and ends deselected with DIR = IN. -/
def Obligations.ReadByteReadsItsAddress : Prop :=
  (∀ a : Addr, expand parameters (.readByte a) =
    ([.dir .input] : List Micro) ++ expand parameters (.setAddress a) ++
      ([.set .ceN false, .set .oeN false, .wait 150, .sample, .set3 true, .respData] : List Micro)) ∧
  (∀ (a : Addr) (v : Byte), eventsOf v (expand parameters (.readByte a)) =
    ([.dir .input, .set .clrN false, .set .clrN true] : List Event) ++
      (List.range 24).reverse.flatMap (fun i => [.set .ser (a.getLsbD i), .set .srclk true, .set .srclk false]) ++
      ([.set .rclk true, .set .rclk false, .set .ceN false, .set .oeN false, .wait 150, .sample v, .set3 true,
        .resp (0x81000000#32 ||| v.setWidth 32)] : List Event)) ∧
  ∀ (a : Addr) (s : State), ClocksLow s → s.weN = true → s.srOeN = false → exec (.readByte a) s = .next
    (answered 0x15#8 [readAnswer s a 0] (eventsOf (readAnswer s a 0) (expand parameters (.readByte a)))
      { s with
        ser := a.getLsbD 0, srclk := false, rclk := false, clrN := true, sc := a, pr := a
        ceN := true, oeN := true, weN := true, dir := .input
        din := readAnswer s a 0
        history := s.history ++ [.read a (readAnswer s a 0)]
        draws := s.draws + 1 })

/-- R135 (b), R51, R52: after `off`, or after `set_0` has left CE_n = WE_n = 0, the same line sequence runs but the byte
returned is a free value, the sample is recorded with no address, and the ideal device's domain is left. From WE_n = 0 with
CE_n = 1 (no command leaves the lines so) the fall of CE_n is an ill-formed strobe as well. -/
def Obligations.ReadByteIllFormedReturnsAFreeByte : Prop :=
  (∀ (a : Addr) (s : State), ClocksLow s →
    ((s.weN = true ∧ s.srOeN = true) ∨ (s.ceN = false ∧ s.weN = false)) → exec (.readByte a) s = .next
    (answered 0x15#8 [Config.freeByte s.draws] (eventsOf (Config.freeByte s.draws) (expand parameters (.readByte a)))
      { s with
        ser := a.getLsbD 0, srclk := false, rclk := false, clrN := true, sc := a, pr := a
        ceN := true, oeN := true, weN := true, dir := .input
        din := Config.freeByte s.draws
        history := s.history ++ [.illFormedRead (Config.freeByte s.draws)]
        draws := s.draws + 1
        device := if s.device = .ideal then .outside else s.device })) ∧
  (∀ (a : Addr) (s : State), ClocksLow s → s.ceN = true → s.weN = false → exec (.readByte a) s = .next
    (answered 0x15#8 [Config.freeByte (s.draws + 1)]
      (eventsOf (Config.freeByte (s.draws + 1)) (expand parameters (.readByte a)))
      { s with
        ser := a.getLsbD 0, srclk := false, rclk := false, clrN := true, sc := a, pr := a
        ceN := true, oeN := true, weN := true, dir := .input
        din := Config.freeByte (s.draws + 1)
        history := s.history ++
          [.illFormedStrobe (Config.freeAddress s.draws) (Config.freeByte s.draws),
            .illFormedRead (Config.freeByte (s.draws + 1))]
        draws := s.draws + 2
        device := if s.device = .ideal then .outside else s.device }))

/-- R137, R138: the list of `read_page` is one complete `read_byte` for each offset of the page, ascending; in range it
reads the addresses page * page_size + off in that order, answers all DATA words in that order and then one DONE; an empty
page answers DONE alone. -/
def Obligations.ReadPageReadsItsAddressesInOrder : Prop :=
  (∀ page pageSize : BitVec 24, expand parameters (.readPage page pageSize) =
    (List.range pageSize.toNat).flatMap (fun off =>
      expand parameters (.readByte (BitVec.ofNat 24 (page.toNat * pageSize.toNat + off))))) ∧
  ∀ (page pageSize : BitVec 24) (s : State), pageInRange page pageSize →
    ClocksLow s → s.weN = true → s.srOeN = false →
    exec (.readPage page pageSize) s = .next
      (answered 0x16#8 ((pageAnswers s page pageSize).map Prod.snd)
        ((pageAnswers s page pageSize).flatMap (fun p => eventsOf p.2 (expand parameters (.readByte p.1))))
        (afterReads (pageAnswers s page pageSize) s)) ∧
    ∀ off, off < pageSize.toNat →
      ((pageAnswers s page pageSize)[off]?.map (fun p => p.1.toNat)) = some (page.toNat * pageSize.toNat + off)

/-- R181, R138: a page out of range is refused whole: one ERR word, HALTED, and no line moves. Decode refuses it already;
this is the meaning of the ill-formed term itself (log 11, the model's choice). -/
def Obligations.ReadPageOutOfRangeIsRefusedWhole : Prop :=
  ∀ (page pageSize : BitVec 24) (s : State),
    pageSize.toNat > 0 → page.toNat * pageSize.toNat + pageSize.toNat > 2 ^ 24 →
    exec (.readPage page pageSize) s = .next
      { s with
        rq := s.rq ++ [0xEE000316#32]
        trace := s.trace ++ [.resp 0xEE000316#32]
        halted := true }

/-! ## Writes -/

/-- R150, R152, R227: `write_bytes` with the outputs on makes exactly one well-formed strobe for each pair, the k-th with
PR = addresses[k] and DOUT = data[k], in list order; it ends deselected with DIR = OUT and the last byte in DOUT. Its
micro-operations are the opening once, the list of each pair in order and the closing once, as the rule gives them. -/
def Obligations.WriteBytesStrobesEachPair : Prop :=
  (∀ (addresses : List Addr) (data : List Byte) (s : State), ClocksLow s → s.srOeN = false →
    exec (.writeBytes addresses data) s = .next
      (answered 0x17#8 [] (eventsOf 0#8 (expand parameters (.writeBytes addresses data)))
        (afterWriteBatch (addresses.zip data) s))) ∧
  ∀ (addresses : List Addr) (data : List Byte), expand parameters (.writeBytes addresses data) =
    ([.dir .output, .set .oeN false, .wait 50000000, .set .oeN true] : List Micro) ++
      (addresses.zip data).flatMap (fun p => expand parameters (.setAddress p.1) ++
        ([.set .ceN true, .set .weN true, .wait 150, .data p.2, .wait 100, .set .ceN false, .set .weN false] :
          List Micro)) ++
      ([.set3 true, .wait 150] : List Micro)

/-- R154 (e), R52: with SR_OE_n = 1 the same line sequence runs, every strobe is ill-formed, and no byte of MEM changes. -/
def Obligations.WriteBytesWithOutputsOffIsIllFormed : Prop :=
  ∀ (addresses : List Addr) (data : List Byte) (s : State), ClocksLow s → s.srOeN = true →
    exec (.writeBytes addresses data) s = .next
      (answered 0x17#8 [] (eventsOf 0#8 (expand parameters (.writeBytes addresses data)))
        { afterWriteBatch (addresses.zip data) s with
          history := s.history ++ illFormedStrobes s (addresses.zip data).length
          draws := s.draws + (addresses.zip data).length
          mem := s.mem
          device := if s.device = .ideal ∧ addresses.zip data ≠ [] then .outside else s.device })

/-- R151: pairing is by position and the shorter list wins: the surplus of the longer list is fetched with the command and
changes nothing, no error is given for it, but its words are still checked by decode. -/
def Obligations.WriteBytesPairsByPosition : Prop :=
  (∀ (addresses : List Addr) (data : List Byte) (rest : List Word), lengthFits addresses → lengthFits data →
    decode (encode (.writeBytes addresses data) ++ rest) =
      .ok (.writeBytes addresses data) (2 + addresses.length + data.length)) ∧
  (∀ (addresses : List Addr) (data : List Byte) (s : State), ∃ t, exec (.writeBytes addresses data) s = .next t ∧
    t.halted = s.halted ∧ t.rq = s.rq ++ [0x80000017#32]) ∧
  (∀ (addresses : List Addr) (data : List Byte) (s : State),
    exec (.writeBytes addresses data) s =
      exec (.writeBytes (addresses.take (min addresses.length data.length))
        (data.take (min addresses.length data.length))) s) ∧
  (∀ (addresses : List Addr) (data : List Byte),
    expand parameters (.writeBytes addresses data) =
      writeOpeningOps parameters ++
        (List.range (min addresses.length data.length)).flatMap (fun k =>
          writePairOps parameters (addresses.getD k 0#24, data.getD k 0#8)) ++
        writeClosingOps parameters) ∧
  (∀ (na nd : BitVec 24) (addressWords dataWords rest : List Word),
    addressWords.length = na.toNat → dataWords.length = nd.toNat →
    ((∃ w ∈ addressWords, w.extractLsb' 24 8 ≠ 0#8) ∨ (∃ w ∈ dataWords, w.extractLsb' 8 24 ≠ 0#24)) →
    decode ((0x17#8 ++ na) :: (0x00#8 ++ nd) :: (addressWords ++ dataWords ++ rest)) =
      .error .reservedNonzero 0x17#8)

/-- R64: with the ideal device, after `write_bytes` every written address holds the byte of its last pair and every other
address what it held. -/
def Obligations.WriteBytesStoresItsPairsOnly : Prop :=
  ∀ (addresses : List Addr) (data : List Byte) (s : State), ClocksLow s → s.srOeN = false → s.device = .ideal →
    Memory.wf s.mem = true →
    ∃ t, exec (.writeBytes addresses data) s = .next t ∧ t.device = .ideal ∧
      (∀ before a b after, addresses.zip data = before ++ (a, b) :: after →
        (∀ p ∈ after, p.1 ≠ a) → memoryRead t.mem a.toNat = b) ∧
      (∀ n : Nat, (∀ p ∈ addresses.zip data, p.1.toNat ≠ n) → memoryRead t.mem n = memoryRead s.mem n)

/-- R64 with R135 and R150, program P1 for every address and byte: with the ideal device, a byte written and then read back
is the byte written. This is the ideal device's doing, not the controller's (R62). -/
def Obligations.IdealDeviceReadsBackWhatWasWritten : Prop :=
  ∀ (a : Addr) (b : Byte) (s : State), ClocksLow s → s.srOeN = false → s.device = .ideal →
    Memory.wf s.mem = true →
    ∃ t, execAll [.writeBytes [a] [b], .readByte a] s = .next t ∧ t.din = b ∧
      t.rq = s.rq ++ [0x80000017#32, 0x81000000#32 ||| b.setWidth 32, 0x80000015#32]

/-! ## Command helpers -/

/-- R166, R170: `enable_protection` is `write_bytes([0x5555,0x2AAA,0x5555],[0xAA,0x55,0xA0])` followed by a 10 ms wait:
the same end state, and the same TRACE but for the wait and the operation code in the DONE word. -/
def Obligations.EnableProtectionIsAWriteAndAWait : Prop :=
  expand parameters .enableProtection =
    expand parameters (.writeBytes [0x005555#24, 0x002AAA#24, 0x005555#24] [0xAA#8, 0x55#8, 0xA0#8]) ++
      ([.wait 10000000] : List Micro) ∧
  (∀ ws, decode (0x18000000#32 :: ws) = .ok .enableProtection 1) ∧
  (∀ w ws, opField w = 0x18#8 → lowField w ≠ 0#24 → decode (w :: ws) = .error .reservedNonzero 0x18#8) ∧
  (∀ s : State, ∃ t u, exec (.writeBytes [0x005555#24, 0x002AAA#24, 0x005555#24] [0xAA#8, 0x55#8, 0xA0#8]) s =
      .next t ∧ exec .enableProtection s = .next u ∧
    ∃ events, t.trace = s.trace ++ events ++ ([.resp 0x80000017#32] : List Event) ∧
      u.trace = s.trace ++ events ++ ([.wait 10000000, .resp 0x80000018#32] : List Event) ∧
      { u with trace := t.trace, rq := t.rq } = t ∧ u.rq = s.rq ++ [0x80000018#32]) ∧
  (∀ s : State, ClocksLow s → s.srOeN = false → ∃ t, exec .enableProtection s = .next t ∧
    t.dir = .output ∧ t.dout = 0xA0#8 ∧ t.sc = 0x005555#24 ∧ t.pr = 0x005555#24 ∧ t.ser = true ∧ Deselected t ∧
    t.history = s.history ++
      ([.strobe 0x005555#24 0xAA#8, .strobe 0x002AAA#24 0x55#8, .strobe 0x005555#24 0xA0#8] : List BusCycle))

/-- R167, R168, R170: `disable_protection` and `erase_chip` are each one `write_bytes` of six pairs and a 10 ms wait, for
whatever bytes CMD_SETUP, CMD_UNPROTECT and CMD_ERASE are (they are general knowledge, log 10). That the six pairs go in one
call is ASSUMED (log 26). -/
def Obligations.DisableProtectionAndEraseChipWriteSixPairs : Prop :=
  ∀ s : State, ClocksLow s → s.srOeN = false →
    exec .disableProtection s = .next
      (answered 0x19#8 [] (eventsOf 0#8 (expand parameters .disableProtection))
        (afterWriteBatch
          [(0x005555#24, 0xAA#8), (0x002AAA#24, 0x55#8), (0x005555#24, parameters.cmdSetup),
            (0x005555#24, 0xAA#8), (0x002AAA#24, 0x55#8), (0x005555#24, parameters.cmdUnprotect)] s)) ∧
    exec .eraseChip s = .next
      (answered 0x1A#8 [] (eventsOf 0#8 (expand parameters .eraseChip))
        (afterWriteBatch
          [(0x005555#24, 0xAA#8), (0x002AAA#24, 0x55#8), (0x005555#24, parameters.cmdSetup),
            (0x005555#24, 0xAA#8), (0x002AAA#24, 0x55#8), (0x005555#24, parameters.cmdErase)] s))

/-- R165: each helper is one `write_bytes` of its pairs and the settle wait, for every configuration. That the six pairs go
in one call is ASSUMED (log 26). -/
def Obligations.HelpersAreOneWriteAndAWait : Prop :=
  ∀ c : Config,
    (expand c .enableProtection =
      expand c (.writeBytes [c.unlockAddr1, c.unlockAddr2, c.unlockAddr1]
        [c.unlockData1, c.unlockData2, c.cmdProtect]) ++ [.wait c.tCmdSettle]) ∧
    (expand c .disableProtection =
      expand c (.writeBytes
        [c.unlockAddr1, c.unlockAddr2, c.unlockAddr1, c.unlockAddr1, c.unlockAddr2, c.unlockAddr1]
        [c.unlockData1, c.unlockData2, c.cmdSetup, c.unlockData1, c.unlockData2, c.cmdUnprotect]) ++
        [.wait c.tCmdSettle]) ∧
    (expand c .eraseChip =
      expand c (.writeBytes
        [c.unlockAddr1, c.unlockAddr2, c.unlockAddr1, c.unlockAddr1, c.unlockAddr2, c.unlockAddr1]
        [c.unlockData1, c.unlockData2, c.cmdSetup, c.unlockData1, c.unlockData2, c.cmdErase]) ++
        [.wait c.tCmdSettle])

/-! ## All commands -/

/-- R187, R78, R40: every well-formed command runs to its DONE from every state, raises nothing, leaves CQ, RUN and the
schedule alone, pushes its DONE word last, and adds one event for each of its micro-operations. -/
def Obligations.EveryFetchedCommandRunsToDone : Prop :=
  ∀ (i : Instr) (s : State), i.WellFormed → ∃ t, exec i s = .next t ∧
    t.halted = s.halted ∧ t.cq = s.cq ∧ t.run = s.run ∧ t.turns = s.turns ∧ t.received = s.received ∧
    (∃ data, t.rq = s.rq ++ data ++ [doneWord (opcodeOf i)]) ∧
    (∃ events, events.length = (expand parameters i).length ∧
      t.trace = s.trace ++ events ++ [.resp (doneWord (opcodeOf i))])

/-- R8, R101-R168: the number of micro-operations of every command. -/
def Obligations.MicroOperationCounts : Prop :=
  ∀ i : Instr, (expand parameters i).length =
    match i with
    | .clear | .shift | .latch => 2
    | .on | .off | .set1 | .set0 | .ioOutput | .ioInput => 1
    | .sendBit _ => 3
    | .sendByte _ => 26
    | .setAddress _ => 76
    | .readByte _ => 83
    | .readPage _ pageSize => 83 * pageSize.toNat
    | .writeBytes addresses data => 6 + 83 * min addresses.length data.length
    | .enableProtection => 256
    | .disableProtection | .eraseChip => 505

/-- R230: the minimum total wait of every command, in nanoseconds. -/
def Obligations.MinimumTotalWaits : Prop :=
  ∀ i : Instr, totalWait (expand parameters i) =
    match i with
    | .readByte _ => 150
    | .readPage _ pageSize => pageSize.toNat * 150
    | .writeBytes addresses data => 50000000 + min addresses.length data.length * 250 + 150
    | .enableProtection => 60000000 + 900
    | .disableProtection | .eraseChip => 60000000 + 1650
    | .clear | .shift | .latch | .on | .off | .sendBit _ | .sendByte _ | .set1 | .set0 | .ioOutput | .ioInput
    | .setAddress _ => 0

/-- R8, R21-R27, R29-R31, R33, R35, R51: every latch, register and RQ after each micro-operation: the new value where the
micro-operation is a writer the rule of that register names, and the old value after every other. A sample takes MEM at PR
from the ideal device at a well-formed read cycle and else a free value (log 5). -/
def Obligations.EachRegisterHasItsWriters : Prop :=
  ∀ (m : Micro) (s : State),
    (perform m s).ser = (match m with | .set .ser v => v | _ => s.ser) ∧
    (perform m s).srclk = (match m with | .set .srclk v => v | _ => s.srclk) ∧
    (perform m s).rclk = (match m with | .set .rclk v => v | _ => s.rclk) ∧
    (perform m s).clrN = (match m with | .set .clrN v => v | _ => s.clrN) ∧
    (perform m s).srOeN = (match m with | .set .srOeN v => v | _ => s.srOeN) ∧
    (perform m s).sc = (if m = .set .clrN false then 0#24
      else if m = .set .srclk true ∧ s.srclk = false then
        (if s.clrN = true then (s.sc <<< 1) ||| (BitVec.ofBool s.ser).setWidth 24 else 0#24)
      else s.sc) ∧
    (perform m s).pr = (if m = .set .rclk true ∧ s.rclk = false then s.sc else s.pr) ∧
    (perform m s).ceN = (match m with | .set .ceN v => v | .set3 v => v | _ => s.ceN) ∧
    (perform m s).oeN = (match m with | .set .oeN v => v | .set3 v => v | _ => s.oeN) ∧
    (perform m s).weN = (match m with | .set .weN v => v | .set3 v => v | _ => s.weN) ∧
    (perform m s).dir = (match m with | .dir d => d | _ => s.dir) ∧
    (perform m s).dout = (match m with | .data b => b | _ => s.dout) ∧
    (perform m s).din = (if m = .sample then
        (if s.device = .ideal ∧ s.dir = .input ∧ s.ceN = false ∧ s.oeN = false ∧ s.weN = true ∧ s.srOeN = false then
          memoryRead s.mem s.pr.toNat
        else Config.freeByte s.draws)
      else s.din) ∧
    (perform m s).rq =
      (match m with
      | .respData => s.rq ++ [0x81000000#32 ||| s.din.setWidth 32]
      | .resp w => s.rq ++ [w]
      | _ => s.rq)

/-- R52: a strobe is presented exactly at a micro-operation after which CE_n = WE_n = 0 when they were not both 0 before,
and a well-formed one presents PR and DOUT as they then are. -/
def Obligations.StrobeHappensAtTheStepThatLowersBothLines : Prop :=
  ∀ (m : Micro) (s t : State), m ≠ .sample → t = perform m s →
    ((strobeLevels t = true ∧ strobeLevels s = false) →
      t.history = s.history ++
        [if t.dir = .output ∧ t.oeN = true ∧ t.srOeN = false then .strobe t.pr t.dout
          else .illFormedStrobe (Config.freeAddress s.draws) (Config.freeByte s.draws)]) ∧
    (¬ (strobeLevels t = true ∧ strobeLevels s = false) → t.history = s.history ∧ t.mem = s.mem)

/-- R104, R211: at a command boundary only `on` and `off` change SR_OE_n; no EEPROM operation turns the outputs off or
on. -/
def Obligations.OnlyOnAndOffChangeTheOutputs : Prop :=
  ∀ s t : State, s.turns = [] → s.run = [] → step s = .next t → t.srOeN ≠ s.srOeN →
    ∃ n, decode s.cq = .ok .on n ∨ decode s.cq = .ok .off n

/-! ## Invariants and whole-machine claims -/

/-- R41: every step keeps the clock invariant, so SRCLK = 0, RCLK = 0 and CLR_n = 1 at every command boundary. -/
def Obligations.EveryStepKeepsTheClockInvariant : Prop :=
  ∀ s t : State, ClockInvariant s → step s = .next t →
    ClockInvariant t ∧ (t.run = [] → t.srclk = false ∧ t.rclk = false ∧ t.clrN = true)

/-- R64, R50: every step keeps MEM in its canonical form, with addresses below 2^24. -/
def Obligations.EveryStepKeepsTheMemoryForm : Prop :=
  ∀ s t : State, Memory.wf s.mem = true → step s = .next t → Memory.wf t.mem = true

/-- R66, R139, R152: from an idle state with the outputs on and low clock lines, every composite operation ends idle,
makes only well-formed cycles and strobes, and at no point drives the data lines against the chip. -/
def Obligations.CompositeOperationsAreSafeFromIdle : Prop :=
  ∀ (i : Instr) (s : State), Composite i → i.WellFormed → Deselected s → s.srOeN = false → ClocksLow s →
    (∀ k, contention (performAll ((expand parameters i).take k) s) = false) ∧
    ∃ t cycles, exec i s = .next t ∧ Deselected t ∧ t.srOeN = false ∧ ClocksLow t ∧
      t.history = s.history ++ cycles ∧ cycles.all inDomain = true ∧ t.device = s.device

/-- R64: with the ideal device, judging the recorded history afterwards gives the memory the run has reached, and the run
stays in the device's domain exactly while every recorded cycle is well-formed. -/
def Obligations.IdealDeviceAgreesWithItsHistory : Prop :=
  ∀ (ms : List Micro) (s t : State), s.device = .ideal → t = performAll ms s →
    ∃ cycles, t.history = s.history ++ cycles ∧
      (t.device = .ideal ↔ cycles.all inDomain = true) ∧
      (t.device = .ideal → judge s.mem cycles = some t.mem)

/-- R64, R51: a run of the general model whose recorded history the ideal device accepts is the run with the ideal device:
all controller state, events, responses and history are the same. -/
def Obligations.GeneralRunJudgedIdealIsTheIdealRun : Prop :=
  ∀ (ms : List Micro) (s t : State) (cycles : List BusCycle) (m : Memory),
    s.device = .oracle → t = performAll ms s → t.history = s.history ++ cycles → judge s.mem cycles = some m →
    performAll ms { s with device := .ideal } = { t with device := .ideal, mem := m }
end

