-- ==== Sys2Proof/Laws/State.lean ====
section
/-! SUPPORT. One lemma per field for each named update of the state: a proof rewrites with these and does not unfold a
record update. -/

namespace Sys2Proof.Machine

section emit

@[simp] theorem emit_ser (e : Event) (s : State) : (emit e s).ser = s.ser := rfl
@[simp] theorem emit_srclk (e : Event) (s : State) : (emit e s).srclk = s.srclk := rfl
@[simp] theorem emit_rclk (e : Event) (s : State) : (emit e s).rclk = s.rclk := rfl
@[simp] theorem emit_clrN (e : Event) (s : State) : (emit e s).clrN = s.clrN := rfl
@[simp] theorem emit_srOeN (e : Event) (s : State) : (emit e s).srOeN = s.srOeN := rfl
@[simp] theorem emit_sc (e : Event) (s : State) : (emit e s).sc = s.sc := rfl
@[simp] theorem emit_pr (e : Event) (s : State) : (emit e s).pr = s.pr := rfl
@[simp] theorem emit_ceN (e : Event) (s : State) : (emit e s).ceN = s.ceN := rfl
@[simp] theorem emit_oeN (e : Event) (s : State) : (emit e s).oeN = s.oeN := rfl
@[simp] theorem emit_weN (e : Event) (s : State) : (emit e s).weN = s.weN := rfl
@[simp] theorem emit_dir (e : Event) (s : State) : (emit e s).dir = s.dir := rfl
@[simp] theorem emit_dout (e : Event) (s : State) : (emit e s).dout = s.dout := rfl
@[simp] theorem emit_din (e : Event) (s : State) : (emit e s).din = s.din := rfl
@[simp] theorem emit_cq (e : Event) (s : State) : (emit e s).cq = s.cq := rfl
@[simp] theorem emit_rq (e : Event) (s : State) : (emit e s).rq = s.rq := rfl
@[simp] theorem emit_halted (e : Event) (s : State) : (emit e s).halted = s.halted := rfl
@[simp] theorem emit_run (e : Event) (s : State) : (emit e s).run = s.run := rfl
@[simp] theorem emit_trace (e : Event) (s : State) : (emit e s).trace = s.trace ++ [e] := rfl
@[simp] theorem emit_history (e : Event) (s : State) : (emit e s).history = s.history := rfl
@[simp] theorem emit_device (e : Event) (s : State) : (emit e s).device = s.device := rfl
@[simp] theorem emit_mem (e : Event) (s : State) : (emit e s).mem = s.mem := rfl
@[simp] theorem emit_draws (e : Event) (s : State) : (emit e s).draws = s.draws := rfl
@[simp] theorem emit_turns (e : Event) (s : State) : (emit e s).turns = s.turns := rfl
@[simp] theorem emit_received (e : Event) (s : State) : (emit e s).received = s.received := rfl

end emit

section pushResponse

@[simp] theorem pushResponse_ser (w : Word) (s : State) : (pushResponse w s).ser = s.ser := rfl
@[simp] theorem pushResponse_srclk (w : Word) (s : State) : (pushResponse w s).srclk = s.srclk := rfl
@[simp] theorem pushResponse_rclk (w : Word) (s : State) : (pushResponse w s).rclk = s.rclk := rfl
@[simp] theorem pushResponse_clrN (w : Word) (s : State) : (pushResponse w s).clrN = s.clrN := rfl
@[simp] theorem pushResponse_srOeN (w : Word) (s : State) : (pushResponse w s).srOeN = s.srOeN := rfl
@[simp] theorem pushResponse_sc (w : Word) (s : State) : (pushResponse w s).sc = s.sc := rfl
@[simp] theorem pushResponse_pr (w : Word) (s : State) : (pushResponse w s).pr = s.pr := rfl
@[simp] theorem pushResponse_ceN (w : Word) (s : State) : (pushResponse w s).ceN = s.ceN := rfl
@[simp] theorem pushResponse_oeN (w : Word) (s : State) : (pushResponse w s).oeN = s.oeN := rfl
@[simp] theorem pushResponse_weN (w : Word) (s : State) : (pushResponse w s).weN = s.weN := rfl
@[simp] theorem pushResponse_dir (w : Word) (s : State) : (pushResponse w s).dir = s.dir := rfl
@[simp] theorem pushResponse_dout (w : Word) (s : State) : (pushResponse w s).dout = s.dout := rfl
@[simp] theorem pushResponse_din (w : Word) (s : State) : (pushResponse w s).din = s.din := rfl
@[simp] theorem pushResponse_cq (w : Word) (s : State) : (pushResponse w s).cq = s.cq := rfl
@[simp] theorem pushResponse_rq (w : Word) (s : State) : (pushResponse w s).rq = s.rq ++ [w] := rfl
@[simp] theorem pushResponse_halted (w : Word) (s : State) : (pushResponse w s).halted = s.halted := rfl
@[simp] theorem pushResponse_run (w : Word) (s : State) : (pushResponse w s).run = s.run := rfl
@[simp] theorem pushResponse_trace (w : Word) (s : State) : (pushResponse w s).trace = s.trace := rfl
@[simp] theorem pushResponse_history (w : Word) (s : State) : (pushResponse w s).history = s.history := rfl
@[simp] theorem pushResponse_device (w : Word) (s : State) : (pushResponse w s).device = s.device := rfl
@[simp] theorem pushResponse_mem (w : Word) (s : State) : (pushResponse w s).mem = s.mem := rfl
@[simp] theorem pushResponse_draws (w : Word) (s : State) : (pushResponse w s).draws = s.draws := rfl
@[simp] theorem pushResponse_turns (w : Word) (s : State) : (pushResponse w s).turns = s.turns := rfl
@[simp] theorem pushResponse_received (w : Word) (s : State) : (pushResponse w s).received = s.received := rfl

end pushResponse

section recordCycle

@[simp] theorem recordCycle_ser (c : BusCycle) (s : State) : (recordCycle c s).ser = s.ser := rfl
@[simp] theorem recordCycle_srclk (c : BusCycle) (s : State) : (recordCycle c s).srclk = s.srclk := rfl
@[simp] theorem recordCycle_rclk (c : BusCycle) (s : State) : (recordCycle c s).rclk = s.rclk := rfl
@[simp] theorem recordCycle_clrN (c : BusCycle) (s : State) : (recordCycle c s).clrN = s.clrN := rfl
@[simp] theorem recordCycle_srOeN (c : BusCycle) (s : State) : (recordCycle c s).srOeN = s.srOeN := rfl
@[simp] theorem recordCycle_sc (c : BusCycle) (s : State) : (recordCycle c s).sc = s.sc := rfl
@[simp] theorem recordCycle_pr (c : BusCycle) (s : State) : (recordCycle c s).pr = s.pr := rfl
@[simp] theorem recordCycle_ceN (c : BusCycle) (s : State) : (recordCycle c s).ceN = s.ceN := rfl
@[simp] theorem recordCycle_oeN (c : BusCycle) (s : State) : (recordCycle c s).oeN = s.oeN := rfl
@[simp] theorem recordCycle_weN (c : BusCycle) (s : State) : (recordCycle c s).weN = s.weN := rfl
@[simp] theorem recordCycle_dir (c : BusCycle) (s : State) : (recordCycle c s).dir = s.dir := rfl
@[simp] theorem recordCycle_dout (c : BusCycle) (s : State) : (recordCycle c s).dout = s.dout := rfl
@[simp] theorem recordCycle_din (c : BusCycle) (s : State) : (recordCycle c s).din = s.din := rfl
@[simp] theorem recordCycle_cq (c : BusCycle) (s : State) : (recordCycle c s).cq = s.cq := rfl
@[simp] theorem recordCycle_rq (c : BusCycle) (s : State) : (recordCycle c s).rq = s.rq := rfl
@[simp] theorem recordCycle_halted (c : BusCycle) (s : State) : (recordCycle c s).halted = s.halted := rfl
@[simp] theorem recordCycle_run (c : BusCycle) (s : State) : (recordCycle c s).run = s.run := rfl
@[simp] theorem recordCycle_trace (c : BusCycle) (s : State) : (recordCycle c s).trace = s.trace := rfl
@[simp] theorem recordCycle_history (c : BusCycle) (s : State) : (recordCycle c s).history = s.history ++ [c] := rfl
@[simp] theorem recordCycle_device (c : BusCycle) (s : State) : (recordCycle c s).device = s.device := rfl
@[simp] theorem recordCycle_mem (c : BusCycle) (s : State) : (recordCycle c s).mem = s.mem := rfl
@[simp] theorem recordCycle_draws (c : BusCycle) (s : State) : (recordCycle c s).draws = s.draws := rfl
@[simp] theorem recordCycle_turns (c : BusCycle) (s : State) : (recordCycle c s).turns = s.turns := rfl
@[simp] theorem recordCycle_received (c : BusCycle) (s : State) : (recordCycle c s).received = s.received := rfl

end recordCycle

section nextDraw

@[simp] theorem nextDraw_ser (s : State) : (nextDraw s).ser = s.ser := rfl
@[simp] theorem nextDraw_srclk (s : State) : (nextDraw s).srclk = s.srclk := rfl
@[simp] theorem nextDraw_rclk (s : State) : (nextDraw s).rclk = s.rclk := rfl
@[simp] theorem nextDraw_clrN (s : State) : (nextDraw s).clrN = s.clrN := rfl
@[simp] theorem nextDraw_srOeN (s : State) : (nextDraw s).srOeN = s.srOeN := rfl
@[simp] theorem nextDraw_sc (s : State) : (nextDraw s).sc = s.sc := rfl
@[simp] theorem nextDraw_pr (s : State) : (nextDraw s).pr = s.pr := rfl
@[simp] theorem nextDraw_ceN (s : State) : (nextDraw s).ceN = s.ceN := rfl
@[simp] theorem nextDraw_oeN (s : State) : (nextDraw s).oeN = s.oeN := rfl
@[simp] theorem nextDraw_weN (s : State) : (nextDraw s).weN = s.weN := rfl
@[simp] theorem nextDraw_dir (s : State) : (nextDraw s).dir = s.dir := rfl
@[simp] theorem nextDraw_dout (s : State) : (nextDraw s).dout = s.dout := rfl
@[simp] theorem nextDraw_din (s : State) : (nextDraw s).din = s.din := rfl
@[simp] theorem nextDraw_cq (s : State) : (nextDraw s).cq = s.cq := rfl
@[simp] theorem nextDraw_rq (s : State) : (nextDraw s).rq = s.rq := rfl
@[simp] theorem nextDraw_halted (s : State) : (nextDraw s).halted = s.halted := rfl
@[simp] theorem nextDraw_run (s : State) : (nextDraw s).run = s.run := rfl
@[simp] theorem nextDraw_trace (s : State) : (nextDraw s).trace = s.trace := rfl
@[simp] theorem nextDraw_history (s : State) : (nextDraw s).history = s.history := rfl
@[simp] theorem nextDraw_device (s : State) : (nextDraw s).device = s.device := rfl
@[simp] theorem nextDraw_mem (s : State) : (nextDraw s).mem = s.mem := rfl
@[simp] theorem nextDraw_draws (s : State) : (nextDraw s).draws = s.draws + 1 := rfl
@[simp] theorem nextDraw_turns (s : State) : (nextDraw s).turns = s.turns := rfl
@[simp] theorem nextDraw_received (s : State) : (nextDraw s).received = s.received := rfl

end nextDraw

section leaveDomain

@[simp] theorem leaveDomain_ser (s : State) : (leaveDomain s).ser = s.ser := rfl
@[simp] theorem leaveDomain_srclk (s : State) : (leaveDomain s).srclk = s.srclk := rfl
@[simp] theorem leaveDomain_rclk (s : State) : (leaveDomain s).rclk = s.rclk := rfl
@[simp] theorem leaveDomain_clrN (s : State) : (leaveDomain s).clrN = s.clrN := rfl
@[simp] theorem leaveDomain_srOeN (s : State) : (leaveDomain s).srOeN = s.srOeN := rfl
@[simp] theorem leaveDomain_sc (s : State) : (leaveDomain s).sc = s.sc := rfl
@[simp] theorem leaveDomain_pr (s : State) : (leaveDomain s).pr = s.pr := rfl
@[simp] theorem leaveDomain_ceN (s : State) : (leaveDomain s).ceN = s.ceN := rfl
@[simp] theorem leaveDomain_oeN (s : State) : (leaveDomain s).oeN = s.oeN := rfl
@[simp] theorem leaveDomain_weN (s : State) : (leaveDomain s).weN = s.weN := rfl
@[simp] theorem leaveDomain_dir (s : State) : (leaveDomain s).dir = s.dir := rfl
@[simp] theorem leaveDomain_dout (s : State) : (leaveDomain s).dout = s.dout := rfl
@[simp] theorem leaveDomain_din (s : State) : (leaveDomain s).din = s.din := rfl
@[simp] theorem leaveDomain_cq (s : State) : (leaveDomain s).cq = s.cq := rfl
@[simp] theorem leaveDomain_rq (s : State) : (leaveDomain s).rq = s.rq := rfl
@[simp] theorem leaveDomain_halted (s : State) : (leaveDomain s).halted = s.halted := rfl
@[simp] theorem leaveDomain_run (s : State) : (leaveDomain s).run = s.run := rfl
@[simp] theorem leaveDomain_trace (s : State) : (leaveDomain s).trace = s.trace := rfl
@[simp] theorem leaveDomain_history (s : State) : (leaveDomain s).history = s.history := rfl
@[simp] theorem leaveDomain_mem (s : State) : (leaveDomain s).mem = s.mem := rfl
@[simp] theorem leaveDomain_draws (s : State) : (leaveDomain s).draws = s.draws := rfl
@[simp] theorem leaveDomain_turns (s : State) : (leaveDomain s).turns = s.turns := rfl
@[simp] theorem leaveDomain_received (s : State) : (leaveDomain s).received = s.received := rfl

end leaveDomain

section deviceWrite

@[simp] theorem deviceWrite_ser (s : State) : (deviceWrite s).ser = s.ser := rfl
@[simp] theorem deviceWrite_srclk (s : State) : (deviceWrite s).srclk = s.srclk := rfl
@[simp] theorem deviceWrite_rclk (s : State) : (deviceWrite s).rclk = s.rclk := rfl
@[simp] theorem deviceWrite_clrN (s : State) : (deviceWrite s).clrN = s.clrN := rfl
@[simp] theorem deviceWrite_srOeN (s : State) : (deviceWrite s).srOeN = s.srOeN := rfl
@[simp] theorem deviceWrite_sc (s : State) : (deviceWrite s).sc = s.sc := rfl
@[simp] theorem deviceWrite_pr (s : State) : (deviceWrite s).pr = s.pr := rfl
@[simp] theorem deviceWrite_ceN (s : State) : (deviceWrite s).ceN = s.ceN := rfl
@[simp] theorem deviceWrite_oeN (s : State) : (deviceWrite s).oeN = s.oeN := rfl
@[simp] theorem deviceWrite_weN (s : State) : (deviceWrite s).weN = s.weN := rfl
@[simp] theorem deviceWrite_dir (s : State) : (deviceWrite s).dir = s.dir := rfl
@[simp] theorem deviceWrite_dout (s : State) : (deviceWrite s).dout = s.dout := rfl
@[simp] theorem deviceWrite_din (s : State) : (deviceWrite s).din = s.din := rfl
@[simp] theorem deviceWrite_cq (s : State) : (deviceWrite s).cq = s.cq := rfl
@[simp] theorem deviceWrite_rq (s : State) : (deviceWrite s).rq = s.rq := rfl
@[simp] theorem deviceWrite_halted (s : State) : (deviceWrite s).halted = s.halted := rfl
@[simp] theorem deviceWrite_run (s : State) : (deviceWrite s).run = s.run := rfl
@[simp] theorem deviceWrite_trace (s : State) : (deviceWrite s).trace = s.trace := rfl
@[simp] theorem deviceWrite_history (s : State) : (deviceWrite s).history = s.history := rfl
@[simp] theorem deviceWrite_device (s : State) : (deviceWrite s).device = s.device := rfl
@[simp] theorem deviceWrite_draws (s : State) : (deviceWrite s).draws = s.draws := rfl
@[simp] theorem deviceWrite_turns (s : State) : (deviceWrite s).turns = s.turns := rfl
@[simp] theorem deviceWrite_received (s : State) : (deviceWrite s).received = s.received := rfl

end deviceWrite

section setThree

@[simp] theorem setThree_ser (v : Level) (s : State) : (setThree v s).ser = s.ser := rfl
@[simp] theorem setThree_srclk (v : Level) (s : State) : (setThree v s).srclk = s.srclk := rfl
@[simp] theorem setThree_rclk (v : Level) (s : State) : (setThree v s).rclk = s.rclk := rfl
@[simp] theorem setThree_clrN (v : Level) (s : State) : (setThree v s).clrN = s.clrN := rfl
@[simp] theorem setThree_srOeN (v : Level) (s : State) : (setThree v s).srOeN = s.srOeN := rfl
@[simp] theorem setThree_sc (v : Level) (s : State) : (setThree v s).sc = s.sc := rfl
@[simp] theorem setThree_pr (v : Level) (s : State) : (setThree v s).pr = s.pr := rfl
@[simp] theorem setThree_ceN (v : Level) (s : State) : (setThree v s).ceN = v := rfl
@[simp] theorem setThree_oeN (v : Level) (s : State) : (setThree v s).oeN = v := rfl
@[simp] theorem setThree_weN (v : Level) (s : State) : (setThree v s).weN = v := rfl
@[simp] theorem setThree_dir (v : Level) (s : State) : (setThree v s).dir = s.dir := rfl
@[simp] theorem setThree_dout (v : Level) (s : State) : (setThree v s).dout = s.dout := rfl
@[simp] theorem setThree_din (v : Level) (s : State) : (setThree v s).din = s.din := rfl
@[simp] theorem setThree_cq (v : Level) (s : State) : (setThree v s).cq = s.cq := rfl
@[simp] theorem setThree_rq (v : Level) (s : State) : (setThree v s).rq = s.rq := rfl
@[simp] theorem setThree_halted (v : Level) (s : State) : (setThree v s).halted = s.halted := rfl
@[simp] theorem setThree_run (v : Level) (s : State) : (setThree v s).run = s.run := rfl
@[simp] theorem setThree_trace (v : Level) (s : State) : (setThree v s).trace = s.trace := rfl
@[simp] theorem setThree_history (v : Level) (s : State) : (setThree v s).history = s.history := rfl
@[simp] theorem setThree_device (v : Level) (s : State) : (setThree v s).device = s.device := rfl
@[simp] theorem setThree_mem (v : Level) (s : State) : (setThree v s).mem = s.mem := rfl
@[simp] theorem setThree_draws (v : Level) (s : State) : (setThree v s).draws = s.draws := rfl
@[simp] theorem setThree_turns (v : Level) (s : State) : (setThree v s).turns = s.turns := rfl
@[simp] theorem setThree_received (v : Level) (s : State) : (setThree v s).received = s.received := rfl

end setThree

section setHalted

@[simp] theorem setHalted_ser (s : State) : (setHalted s).ser = s.ser := rfl
@[simp] theorem setHalted_srclk (s : State) : (setHalted s).srclk = s.srclk := rfl
@[simp] theorem setHalted_rclk (s : State) : (setHalted s).rclk = s.rclk := rfl
@[simp] theorem setHalted_clrN (s : State) : (setHalted s).clrN = s.clrN := rfl
@[simp] theorem setHalted_srOeN (s : State) : (setHalted s).srOeN = s.srOeN := rfl
@[simp] theorem setHalted_sc (s : State) : (setHalted s).sc = s.sc := rfl
@[simp] theorem setHalted_pr (s : State) : (setHalted s).pr = s.pr := rfl
@[simp] theorem setHalted_ceN (s : State) : (setHalted s).ceN = s.ceN := rfl
@[simp] theorem setHalted_oeN (s : State) : (setHalted s).oeN = s.oeN := rfl
@[simp] theorem setHalted_weN (s : State) : (setHalted s).weN = s.weN := rfl
@[simp] theorem setHalted_dir (s : State) : (setHalted s).dir = s.dir := rfl
@[simp] theorem setHalted_dout (s : State) : (setHalted s).dout = s.dout := rfl
@[simp] theorem setHalted_din (s : State) : (setHalted s).din = s.din := rfl
@[simp] theorem setHalted_cq (s : State) : (setHalted s).cq = s.cq := rfl
@[simp] theorem setHalted_rq (s : State) : (setHalted s).rq = s.rq := rfl
@[simp] theorem setHalted_halted (s : State) : (setHalted s).halted = true := rfl
@[simp] theorem setHalted_run (s : State) : (setHalted s).run = s.run := rfl
@[simp] theorem setHalted_trace (s : State) : (setHalted s).trace = s.trace := rfl
@[simp] theorem setHalted_history (s : State) : (setHalted s).history = s.history := rfl
@[simp] theorem setHalted_device (s : State) : (setHalted s).device = s.device := rfl
@[simp] theorem setHalted_mem (s : State) : (setHalted s).mem = s.mem := rfl
@[simp] theorem setHalted_draws (s : State) : (setHalted s).draws = s.draws := rfl
@[simp] theorem setHalted_turns (s : State) : (setHalted s).turns = s.turns := rfl
@[simp] theorem setHalted_received (s : State) : (setHalted s).received = s.received := rfl

end setHalted

section hostPush

@[simp] theorem hostPush_ser (w : Word) (s : State) : (hostPush w s).ser = s.ser := rfl
@[simp] theorem hostPush_srclk (w : Word) (s : State) : (hostPush w s).srclk = s.srclk := rfl
@[simp] theorem hostPush_rclk (w : Word) (s : State) : (hostPush w s).rclk = s.rclk := rfl
@[simp] theorem hostPush_clrN (w : Word) (s : State) : (hostPush w s).clrN = s.clrN := rfl
@[simp] theorem hostPush_srOeN (w : Word) (s : State) : (hostPush w s).srOeN = s.srOeN := rfl
@[simp] theorem hostPush_sc (w : Word) (s : State) : (hostPush w s).sc = s.sc := rfl
@[simp] theorem hostPush_pr (w : Word) (s : State) : (hostPush w s).pr = s.pr := rfl
@[simp] theorem hostPush_ceN (w : Word) (s : State) : (hostPush w s).ceN = s.ceN := rfl
@[simp] theorem hostPush_oeN (w : Word) (s : State) : (hostPush w s).oeN = s.oeN := rfl
@[simp] theorem hostPush_weN (w : Word) (s : State) : (hostPush w s).weN = s.weN := rfl
@[simp] theorem hostPush_dir (w : Word) (s : State) : (hostPush w s).dir = s.dir := rfl
@[simp] theorem hostPush_dout (w : Word) (s : State) : (hostPush w s).dout = s.dout := rfl
@[simp] theorem hostPush_din (w : Word) (s : State) : (hostPush w s).din = s.din := rfl
@[simp] theorem hostPush_cq (w : Word) (s : State) : (hostPush w s).cq = s.cq ++ [w] := rfl
@[simp] theorem hostPush_rq (w : Word) (s : State) : (hostPush w s).rq = s.rq := rfl
@[simp] theorem hostPush_halted (w : Word) (s : State) : (hostPush w s).halted = s.halted := rfl
@[simp] theorem hostPush_run (w : Word) (s : State) : (hostPush w s).run = s.run := rfl
@[simp] theorem hostPush_trace (w : Word) (s : State) : (hostPush w s).trace = s.trace := rfl
@[simp] theorem hostPush_history (w : Word) (s : State) : (hostPush w s).history = s.history := rfl
@[simp] theorem hostPush_device (w : Word) (s : State) : (hostPush w s).device = s.device := rfl
@[simp] theorem hostPush_mem (w : Word) (s : State) : (hostPush w s).mem = s.mem := rfl
@[simp] theorem hostPush_draws (w : Word) (s : State) : (hostPush w s).draws = s.draws := rfl
@[simp] theorem hostPush_turns (w : Word) (s : State) : (hostPush w s).turns = s.turns := rfl
@[simp] theorem hostPush_received (w : Word) (s : State) : (hostPush w s).received = s.received := rfl

end hostPush

section takeWords

@[simp] theorem takeWords_ser (n : Nat) (s : State) : (takeWords n s).ser = s.ser := rfl
@[simp] theorem takeWords_srclk (n : Nat) (s : State) : (takeWords n s).srclk = s.srclk := rfl
@[simp] theorem takeWords_rclk (n : Nat) (s : State) : (takeWords n s).rclk = s.rclk := rfl
@[simp] theorem takeWords_clrN (n : Nat) (s : State) : (takeWords n s).clrN = s.clrN := rfl
@[simp] theorem takeWords_srOeN (n : Nat) (s : State) : (takeWords n s).srOeN = s.srOeN := rfl
@[simp] theorem takeWords_sc (n : Nat) (s : State) : (takeWords n s).sc = s.sc := rfl
@[simp] theorem takeWords_pr (n : Nat) (s : State) : (takeWords n s).pr = s.pr := rfl
@[simp] theorem takeWords_ceN (n : Nat) (s : State) : (takeWords n s).ceN = s.ceN := rfl
@[simp] theorem takeWords_oeN (n : Nat) (s : State) : (takeWords n s).oeN = s.oeN := rfl
@[simp] theorem takeWords_weN (n : Nat) (s : State) : (takeWords n s).weN = s.weN := rfl
@[simp] theorem takeWords_dir (n : Nat) (s : State) : (takeWords n s).dir = s.dir := rfl
@[simp] theorem takeWords_dout (n : Nat) (s : State) : (takeWords n s).dout = s.dout := rfl
@[simp] theorem takeWords_din (n : Nat) (s : State) : (takeWords n s).din = s.din := rfl
@[simp] theorem takeWords_cq (n : Nat) (s : State) : (takeWords n s).cq = s.cq.drop n := rfl
@[simp] theorem takeWords_rq (n : Nat) (s : State) : (takeWords n s).rq = s.rq := rfl
@[simp] theorem takeWords_halted (n : Nat) (s : State) : (takeWords n s).halted = s.halted := rfl
@[simp] theorem takeWords_run (n : Nat) (s : State) : (takeWords n s).run = s.run := rfl
@[simp] theorem takeWords_trace (n : Nat) (s : State) : (takeWords n s).trace = s.trace := rfl
@[simp] theorem takeWords_history (n : Nat) (s : State) : (takeWords n s).history = s.history := rfl
@[simp] theorem takeWords_device (n : Nat) (s : State) : (takeWords n s).device = s.device := rfl
@[simp] theorem takeWords_mem (n : Nat) (s : State) : (takeWords n s).mem = s.mem := rfl
@[simp] theorem takeWords_draws (n : Nat) (s : State) : (takeWords n s).draws = s.draws := rfl
@[simp] theorem takeWords_turns (n : Nat) (s : State) : (takeWords n s).turns = s.turns := rfl
@[simp] theorem takeWords_received (n : Nat) (s : State) : (takeWords n s).received = s.received := rfl

end takeWords

end Sys2Proof.Machine
end

