-- ==== Sys2Proof/Laws/Ops.lean ====
section
/-! SUPPORT. What the shared operations do: strobes, micro-operations, lists of micro-operations. -/

namespace Sys2Proof.Machine

open Sys2Proof.Safety

/-- Leaving the domain changes the ideal device only (R64). -/
theorem leaveDomain_device (s : State) :
    (leaveDomain s).device = if s.device = .ideal then .outside else s.device := by
  unfold leaveDomain
  cases s.device <;> rfl

/-! ## The write strobe -/

/-- A micro-operation that leaves CE_n and WE_n alone is no strobe (R52). -/
theorem strobeIfNew_of_same_levels {before after : State} (hc : after.ceN = before.ceN) (hw : after.weN = before.weN) :
    strobeIfNew before after = after := by
  simp [strobeIfNew, strobeLevels, hc, hw]

/-- A micro-operation that leaves CE_n at 1 is no strobe (R52). -/
theorem strobeIfNew_of_ceN {before after : State} (hc : after.ceN = true) : strobeIfNew before after = after := by
  simp [strobeIfNew, strobeLevels, hc]

/-- A micro-operation that leaves WE_n at 1 is no strobe (R52). -/
theorem strobeIfNew_of_weN {before after : State} (hw : after.weN = true) : strobeIfNew before after = after := by
  simp [strobeIfNew, strobeLevels, hw]

/-- A micro-operation from a state with both lines at 0 is no strobe (R52). -/
theorem strobeIfNew_of_low {before after : State} (hc : before.ceN = false) (hw : before.weN = false) :
    strobeIfNew before after = after := by
  simp [strobeIfNew, strobeLevels, hc, hw]

/-- Everything a strobe can do: nothing, a well-formed strobe, or an ill-formed one (R52). -/
theorem strobeIfNew_cases (before after : State) :
    strobeIfNew before after = after ∨
    (strobeWellFormed after = true ∧
      strobeIfNew before after = recordCycle (.strobe after.pr after.dout) (deviceWrite after)) ∨
    (strobeWellFormed after = false ∧
      strobeIfNew before after = nextDraw (leaveDomain (recordCycle
        (.illFormedStrobe (Config.freeAddress after.draws) (Config.freeByte after.draws)) after))) := by
  unfold strobeIfNew presentStrobe
  cases strobeWellFormed after <;> split <;> simp

/-- A strobe writes no latch, no register and no event of its own (R52): it can only record a cycle, store a byte, leave the
ideal device's domain and take a draw. -/
theorem strobeIfNew_registers (before after : State) :
    (strobeIfNew before after).srclk = after.srclk ∧ (strobeIfNew before after).rclk = after.rclk ∧
    (strobeIfNew before after).clrN = after.clrN ∧ (strobeIfNew before after).srOeN = after.srOeN ∧
    (strobeIfNew before after).sc = after.sc ∧ (strobeIfNew before after).pr = after.pr ∧
    (strobeIfNew before after).ceN = after.ceN ∧ (strobeIfNew before after).oeN = after.oeN ∧
    (strobeIfNew before after).weN = after.weN ∧ (strobeIfNew before after).dir = after.dir ∧
    (strobeIfNew before after).dout = after.dout ∧ (strobeIfNew before after).din = after.din := by
  rcases strobeIfNew_cases before after with h | ⟨-, h⟩ | ⟨-, h⟩ <;> rw [h] <;>
    exact ⟨rfl, rfl, rfl, rfl, rfl, rfl, rfl, rfl, rfl, rfl, rfl, rfl⟩

/-- Leaving the domain at a sample changes the device alone (R64). -/
theorem sampleDomain_cases (s : State) :
    (readWellFormed s = true ∧ sampleDomain s = s) ∨ (readWellFormed s = false ∧ sampleDomain s = leaveDomain s) := by
  unfold sampleDomain
  cases readWellFormed s <;> simp

/-! ## Micro-operations -/

theorem perform_set_ser (v : Level) (s : State) : perform (.set .ser v) s = emit (.set .ser v) { s with ser := v } := by
  simp [perform, setLine, strobeIfNew_of_same_levels]

/-- R22 -/
theorem perform_set_srclk (v : Level) (s : State) : perform (.set .srclk v) s =
    emit (.set .srclk v) { s with srclk := v, sc := if v && !s.srclk then shiftedChain s else s.sc } := by
  simp [perform, setLine, strobeIfNew_of_same_levels]

/-- R23 -/
theorem perform_set_rclk (v : Level) (s : State) : perform (.set .rclk v) s =
    emit (.set .rclk v) { s with rclk := v, pr := if v && !s.rclk then s.sc else s.pr } := by
  simp [perform, setLine, strobeIfNew_of_same_levels]

/-- R24 -/
theorem perform_set_clrN (v : Level) (s : State) : perform (.set .clrN v) s =
    emit (.set .clrN v) { s with clrN := v, sc := if v then s.sc else 0#24 } := by
  simp [perform, setLine, strobeIfNew_of_same_levels]

theorem perform_set_srOeN (v : Level) (s : State) :
    perform (.set .srOeN v) s = emit (.set .srOeN v) { s with srOeN := v } := by
  simp [perform, setLine, strobeIfNew_of_same_levels]

theorem perform_set_oeN (v : Level) (s : State) :
    perform (.set .oeN v) s = emit (.set .oeN v) { s with oeN := v } := by
  simp [perform, setLine, strobeIfNew_of_same_levels]

theorem perform_set_ceN_high (s : State) :
    perform (.set .ceN true) s = emit (.set .ceN true) { s with ceN := true } := by
  simp [perform, setLine, strobeIfNew_of_ceN]

theorem perform_set_weN_high (s : State) :
    perform (.set .weN true) s = emit (.set .weN true) { s with weN := true } := by
  simp [perform, setLine, strobeIfNew_of_weN]

theorem perform_set3_high (s : State) :
    perform (.set3 true) s = emit (.set3 true) { s with ceN := true, oeN := true, weN := true } := by
  simp [perform, setThree, strobeIfNew_of_ceN]

/-- Chip-enable low with write-enable high is no strobe (R52). -/
theorem perform_set_ceN_low_of_weN {s : State} (h : s.weN = true) :
    perform (.set .ceN false) s = emit (.set .ceN false) { s with ceN := false } := by
  simp [perform, setLine, strobeIfNew_of_weN, h]

/-- Chip-enable low where it is low already is no strobe (R52). -/
theorem perform_set_ceN_low_of_ceN {s : State} (h : s.ceN = false) :
    perform (.set .ceN false) s = emit (.set .ceN false) { s with ceN := false } := by
  simp [perform, setLine, strobeIfNew_of_same_levels, h]

/-- Write-enable going to 0 with chip-enable at 0 is the strobe of `write_bytes` (R52, R150). -/
theorem perform_set_weN_low_strobes {s : State} (hc : s.ceN = false) (hw : s.weN = true) :
    perform (.set .weN false) s = emit (.set .weN false) (presentStrobe { s with weN := false }) := by
  simp [perform, setLine, strobeIfNew, strobeLevels, hc, hw]

/-- `SET3(0)` is an ill-formed strobe from a state in which CE_n and WE_n are not both 0 (R52, R121). -/
theorem perform_set3_low_strobes {s : State} (h : s.ceN = true ∨ s.weN = true) :
    perform (.set3 false) s = emit (.set3 false) (nextDraw (leaveDomain (recordCycle
      (.illFormedStrobe (Config.freeAddress s.draws) (Config.freeByte s.draws)) (setThree false s)))) := by
  have hb : strobeLevels s = false := by unfold strobeLevels; rcases h with h | h <;> simp [h]
  have ha : strobeLevels (setThree false s) = true := rfl
  have hw : strobeWellFormed (setThree false s) = false := by simp [strobeWellFormed]
  simp [perform, strobeIfNew, ha, hb, presentStrobe, hw]

/-- `SET3(0)` where CE_n and WE_n are both 0 is no strobe (R52). -/
theorem perform_set3_low_of_low {s : State} (hc : s.ceN = false) (hw : s.weN = false) :
    perform (.set3 false) s = emit (.set3 false) (setThree false s) := by
  simp [perform, strobeIfNew_of_low hc hw]

theorem perform_dir (d : Dir) (s : State) : perform (.dir d) s = emit (.dir d) { s with dir := d } := rfl

theorem perform_data (b : Byte) (s : State) : perform (.data b) s = emit (.data b) { s with dout := b } := rfl

theorem perform_wait (t : Nat) (s : State) : perform (.wait t) s = emit (.wait t) s := rfl

theorem perform_resp (w : Word) (s : State) : perform (.resp w) s = emit (.resp w) (pushResponse w s) := rfl

theorem perform_respData (s : State) :
    perform .respData s = emit (.resp (dataWord s.din)) (pushResponse (dataWord s.din) s) := rfl

theorem perform_sample (s : State) : perform .sample s = emit (.sample (sampledByte s)) (takeSample s) := rfl

/-- The event a micro-operation appends to TRACE (R8, R40): that of `eventOf`, with the byte the sample reads or the byte DIN
holds. -/
theorem perform_trace (m : Micro) (s : State) :
    (perform m s).trace = s.trace ++ [eventOf (if m = .sample then sampledByte s else s.din) m] := by
  have hs (before after : State) : (strobeIfNew before after).trace = after.trace := by
    rcases strobeIfNew_cases before after with h | ⟨-, h⟩ | ⟨-, h⟩ <;> simp [h]
  have hd (s : State) : (sampleDomain s).trace = s.trace := by
    unfold sampleDomain; split <;> simp
  cases m with
  | set l v => cases l <;> simp [perform, hs, setLine, eventOf]
  | _ => simp [perform, hs, hd, takeSample, eventOf]

/-! ## Lists of micro-operations -/

@[simp] theorem performAll_nil (s : State) : performAll [] s = s := rfl

theorem performAll_cons (m : Micro) (ms : List Micro) (s : State) :
    performAll (m :: ms) s = performAll ms (perform m s) := rfl

/-- A list is performed as its parts, one after the other (R60). -/
theorem performAll_append (ms ns : List Micro) (s : State) :
    performAll (ms ++ ns) s = performAll ns (performAll ms s) := by
  induction ms generalizing s with
  | nil => rfl
  | cons m ms ih => simp [performAll_cons, ih]

/-- A command is its list and then its DONE response (R38, R78). -/
theorem runCommand_eq (op : Byte) (ops : List Micro) (s : State) :
    runCommand op ops s = emit (.resp (doneWord op)) (pushResponse (doneWord op) (performAll ops s)) := by
  simp [runCommand, performAll_append, performAll_cons, perform_resp]

/-- Each micro-operation appends one event (R40). -/
theorem performAll_trace_length (ms : List Micro) (s : State) :
    ∃ events : List Event, events.length = ms.length ∧ (performAll ms s).trace = s.trace ++ events := by
  induction ms generalizing s with
  | nil => exact ⟨[], rfl, by simp⟩
  | cons m ms ih =>
    obtain ⟨events, hl, ht⟩ := ih (perform m s)
    exact ⟨eventOf (if m = .sample then sampledByte s else s.din) m :: events, by simp [hl],
      by simp [performAll_cons, ht, perform_trace]⟩

/-! ## Events -/

@[simp] theorem eventsOf_nil (v : Byte) : eventsOf v [] = [] := rfl

@[simp] theorem eventsOf_cons (v : Byte) (m : Micro) (ms : List Micro) :
    eventsOf v (m :: ms) = eventOf v m :: eventsOf v ms := rfl

@[simp] theorem eventsOf_append (v : Byte) (ms ns : List Micro) :
    eventsOf v (ms ++ ns) = eventsOf v ms ++ eventsOf v ns := by simp [eventsOf]

@[simp] theorem eventsOf_length (v : Byte) (ms : List Micro) : (eventsOf v ms).length = ms.length := by
  simp [eventsOf]

end Sys2Proof.Machine
end

