-- ==== Sys2Proof/Laws/Chain.lean ====
section
/-! SUPPORT. What the shift-register lists do: clear, send_bit, latch, set_address (40_shift_register.md,
41_eeprom_line_control.md R124, R125), and the chain as a number. -/

namespace Sys2Proof.Machine

open Sys2Proof.Safety

/-! ## The chain -/

/-- One shift, bit by bit (R22). -/
theorem getLsbD_shiftIn (chain : Addr) (bit : Level) (k : Nat) (hk : k < 24) :
    (shiftIn chain bit).getLsbD k = if k = 0 then bit else chain.getLsbD (k - 1) := by
  rcases Nat.eq_zero_or_pos k with rfl | h
  · simp [shiftIn]
  · have h1 : ¬ k < 1 := by omega
    have h0 : k ≠ 0 := by omega
    simp only [shiftIn, BitVec.getLsbD_or, BitVec.getLsbD_shiftLeft, BitVec.getLsbD_setWidth, BitVec.getLsbD_ofBool]
    simp [hk, h1, h0]

/-- The chain after a run of shifts (R107): the last bits sent, the last in stage 0, and above them the old contents. -/
theorem getLsbD_foldl_shiftIn (bits : List Level) (chain : Addr) (k : Nat) (hk : k < 24) :
    (bits.foldl shiftIn chain).getLsbD k =
      if h : k < bits.length then bits[bits.length - 1 - k] else chain.getLsbD (k - bits.length) := by
  induction bits using List.reverseRecOn generalizing k with
  | nil => simp
  | append_singleton bits b ih =>
    rw [List.foldl_append, List.foldl_cons, List.foldl_nil, getLsbD_shiftIn _ _ _ hk]
    rcases Nat.eq_zero_or_pos k with rfl | h
    · simp
    · have h0 : k ≠ 0 := by omega
      rw [if_neg h0, ih (k - 1) (by omega)]
      by_cases hlt : k < bits.length + 1
      · have h1 : k - 1 < bits.length := by omega
        rw [dif_pos h1, dif_pos (by simpa using hlt)]
        rw [List.getElem_append_left (by simp; omega)]
        congr 1
        simp
        omega
      · have h1 : ¬ k - 1 < bits.length := by omega
        rw [dif_neg h1, dif_neg (by simpa using hlt)]
        congr 1
        simp
        omega

/-- 24 bits most significant first fill the chain with the address they are the bits of (R125). -/
theorem foldl_shiftIn_addressBits (a chain : Addr) : (addressBits a).foldl shiftIn chain = a := by
  apply BitVec.eq_of_getLsbD_eq
  intro k hk
  have hl : (addressBits a).length = 24 := by simp [addressBits]
  rw [getLsbD_foldl_shiftIn _ _ _ hk, dif_pos (by omega)]
  simp only [addressBits, List.getElem_map, List.getElem_range, List.length_map, List.length_range]
  congr 1
  omega

/-- Eight bits of a byte, bit 0 first, put the reversed byte in stages 7..0 (R106). -/
theorem foldl_shiftIn_byteBits (v : Byte) (chain : Addr) :
    (byteBits v).foldl shiftIn chain = (chain <<< 8) ||| (rev8 v).setWidth 24 := by
  apply BitVec.eq_of_getLsbD_eq
  intro k hk
  have hl : (byteBits v).length = 8 := by simp [byteBits]
  rw [getLsbD_foldl_shiftIn _ _ _ hk]
  by_cases h : k < 8
  · rw [dif_pos (by omega)]
    simp only [BitVec.getLsbD_or, BitVec.getLsbD_shiftLeft, BitVec.getLsbD_setWidth, rev8, BitVec.getLsbD_reverse,
      BitVec.getMsbD]
    simp [byteBits, hk, h]
  · rw [dif_neg (by omega)]
    have : (rev8 v).getLsbD k = false := BitVec.getLsbD_of_ge _ _ (by omega)
    simp only [BitVec.getLsbD_or, BitVec.getLsbD_shiftLeft, BitVec.getLsbD_setWidth, this, hl]
    simp [hk, h]

theorem getLast?_addressBits (a : Addr) : (addressBits a).getLast? = some (a.getLsbD 0) := by
  simp [addressBits, List.range_succ]

theorem getLast?_byteBits (v : Byte) : (byteBits v).getLast? = some (v.getLsbD 7) := by
  simp [byteBits, List.range_succ]

/-! ## The lists -/

theorem performAll_clearOps (s : State) : performAll clearOps s =
    { s with clrN := true, sc := 0#24, trace := s.trace ++ eventsOf 0#8 clearOps } := by
  simp [clearOps, performAll_cons, perform_set_clrN, emit, eventOf]

theorem performAll_shiftOps {s : State} (h : s.srclk = false) : performAll shiftOps s =
    { s with srclk := false, sc := shiftedChain s, trace := s.trace ++ eventsOf 0#8 shiftOps } := by
  simp [shiftOps, performAll_cons, perform_set_srclk, emit, eventOf, h, shiftedChain]

theorem performAll_latchOps {s : State} (h : s.rclk = false) : performAll latchOps s =
    { s with rclk := false, pr := s.sc, trace := s.trace ++ eventsOf 0#8 latchOps } := by
  simp [latchOps, performAll_cons, perform_set_rclk, emit, eventOf, h]

theorem performAll_sendBitOps {s : State} (b : Level) (h : s.srclk = false) (hc : s.clrN = true) :
    performAll (sendBitOps b) s =
      { s with ser := b, srclk := false, sc := shiftIn s.sc b, trace := s.trace ++ eventsOf 0#8 (sendBitOps b) } := by
  simp [sendBitOps, shiftOps, performAll_cons, perform_set_ser, perform_set_srclk, emit, eventOf, h, hc, shiftedChain]

/-- A run of `send_bit`s (R105, R107). -/
theorem performAll_sendBitsOps (bits : List Level) {s : State} (h : s.srclk = false) (hc : s.clrN = true) :
    performAll (sendBitsOps bits) s =
      { s with
        ser := bits.getLast?.getD s.ser
        srclk := false
        sc := bits.foldl shiftIn s.sc
        trace := s.trace ++ eventsOf 0#8 (sendBitsOps bits) } := by
  induction bits generalizing s with
  | nil =>
    cases s
    simp_all [sendBitsOps]
  | cons b bits ih =>
    rw [sendBitsOps, List.flatMap_cons, performAll_append, performAll_sendBitOps b h hc]
    refine (ih (by rfl) (by exact hc)).trans ?_
    simp [sendBitsOps, List.getLast?_cons]

/-- What `set_address` does (R124, R125). -/
theorem performAll_setAddressOps (a : Addr) {s : State} (h : s.srclk = false) (hr : s.rclk = false) :
    performAll (setAddressOps a) s =
      { s with
        ser := a.getLsbD 0, srclk := false, rclk := false, clrN := true, sc := a, pr := a
        trace := s.trace ++ eventsOf 0#8 (setAddressOps a) } := by
  rw [setAddressOps, performAll_append, performAll_append, performAll_clearOps,
    performAll_sendBitsOps _ (by exact h) rfl, performAll_latchOps (by exact hr)]
  simp [foldl_shiftIn_addressBits, getLast?_addressBits]

/-- What `send_byte` does (R106). -/
theorem performAll_sendByteOps (v : Byte) {s : State} (h : ClocksIdle s) :
    performAll (sendByteOps v) s =
      { s with
        ser := v.getLsbD 7
        srclk := false, rclk := false
        sc := (s.sc <<< 8) ||| (rev8 v).setWidth 24
        pr := (s.sc <<< 8) ||| (rev8 v).setWidth 24
        trace := s.trace ++ eventsOf 0#8 (sendByteOps v) } := by
  rw [sendByteOps, performAll_append, performAll_sendBitsOps _ h.1 h.2.2, performAll_latchOps (by exact h.2.1)]
  simp [foldl_shiftIn_byteBits, getLast?_byteBits]

end Sys2Proof.Machine
end

