-- ==== Sys2Proof/Laws/Bus.lean ====
section
/-! SUPPORT. What the bus operations do: read_byte and runs of it, the pairs of write_bytes and batches of them
(42_eeprom_read.md, 43_eeprom_write.md, 20_memory.md R51, R52). -/

namespace Sys2Proof.Machine

open Sys2Proof.Safety

/-! ## The shift register after a run of addresses -/

@[simp] theorem afterAddresses_nil (s : State) : afterAddresses [] s = s := rfl

/-- Only the last address counts (R125). -/
theorem afterAddresses_concat (as : List Addr) (a : Addr) (s : State) : afterAddresses (as ++ [a]) s =
    { s with ser := a.getLsbD 0, srclk := false, rclk := false, clrN := true, sc := a, pr := a } := by
  simp [afterAddresses]

/-- Low clock lines stay low. -/
theorem clocksLow_afterAddresses (as : List Addr) {s : State} (h : ClocksLow s) : ClocksLow (afterAddresses as s) := by
  unfold afterAddresses
  split
  · exact h
  · exact ⟨rfl, rfl⟩

section frame
variable (as : List Addr) (s : State)

@[simp] theorem afterAddresses_srOeN : (afterAddresses as s).srOeN = s.srOeN := by unfold afterAddresses; split <;> rfl
@[simp] theorem afterAddresses_ceN : (afterAddresses as s).ceN = s.ceN := by unfold afterAddresses; split <;> rfl
@[simp] theorem afterAddresses_oeN : (afterAddresses as s).oeN = s.oeN := by unfold afterAddresses; split <;> rfl
@[simp] theorem afterAddresses_weN : (afterAddresses as s).weN = s.weN := by unfold afterAddresses; split <;> rfl
@[simp] theorem afterAddresses_dir : (afterAddresses as s).dir = s.dir := by unfold afterAddresses; split <;> rfl
@[simp] theorem afterAddresses_dout : (afterAddresses as s).dout = s.dout := by unfold afterAddresses; split <;> rfl
@[simp] theorem afterAddresses_din : (afterAddresses as s).din = s.din := by unfold afterAddresses; split <;> rfl
@[simp] theorem afterAddresses_cq : (afterAddresses as s).cq = s.cq := by unfold afterAddresses; split <;> rfl
@[simp] theorem afterAddresses_rq : (afterAddresses as s).rq = s.rq := by unfold afterAddresses; split <;> rfl
@[simp] theorem afterAddresses_halted : (afterAddresses as s).halted = s.halted := by unfold afterAddresses; split <;> rfl
@[simp] theorem afterAddresses_run : (afterAddresses as s).run = s.run := by unfold afterAddresses; split <;> rfl
@[simp] theorem afterAddresses_trace : (afterAddresses as s).trace = s.trace := by unfold afterAddresses; split <;> rfl
@[simp] theorem afterAddresses_history : (afterAddresses as s).history = s.history := by unfold afterAddresses; split <;> rfl
@[simp] theorem afterAddresses_device : (afterAddresses as s).device = s.device := by unfold afterAddresses; split <;> rfl
@[simp] theorem afterAddresses_mem : (afterAddresses as s).mem = s.mem := by unfold afterAddresses; split <;> rfl
@[simp] theorem afterAddresses_draws : (afterAddresses as s).draws = s.draws := by unfold afterAddresses; split <;> rfl
@[simp] theorem afterAddresses_turns : (afterAddresses as s).turns = s.turns := by unfold afterAddresses; split <;> rfl
@[simp] theorem afterAddresses_received : (afterAddresses as s).received = s.received := by unfold afterAddresses; split <;> rfl

end frame

/-! ## Reads -/

section frame
variable (answers : List (Addr × Byte)) (s : State)

@[simp] theorem afterReads_srOeN : (afterReads answers s).srOeN = s.srOeN := by
  unfold afterReads; split <;> simp
@[simp] theorem afterReads_dout : (afterReads answers s).dout = s.dout := by
  unfold afterReads; split <;> simp
@[simp] theorem afterReads_cq : (afterReads answers s).cq = s.cq := by
  unfold afterReads; split <;> simp
@[simp] theorem afterReads_rq : (afterReads answers s).rq = s.rq := by
  unfold afterReads; split <;> simp
@[simp] theorem afterReads_halted : (afterReads answers s).halted = s.halted := by
  unfold afterReads; split <;> simp
@[simp] theorem afterReads_run : (afterReads answers s).run = s.run := by
  unfold afterReads; split <;> simp
@[simp] theorem afterReads_trace : (afterReads answers s).trace = s.trace := by
  unfold afterReads; split <;> simp
@[simp] theorem afterReads_device : (afterReads answers s).device = s.device := by
  unfold afterReads; split <;> simp
@[simp] theorem afterReads_mem : (afterReads answers s).mem = s.mem := by
  unfold afterReads; split <;> simp
@[simp] theorem afterReads_turns : (afterReads answers s).turns = s.turns := by
  unfold afterReads; split <;> simp
@[simp] theorem afterReads_received : (afterReads answers s).received = s.received := by
  unfold afterReads; split <;> simp

end frame


/-- The chip's answer at a well-formed cycle is that of its address and draw (R51, R64). -/
theorem chipByte_eq_readAnswer (s : State) : chipByte s = readAnswer s s.pr 0 := by
  unfold chipByte readAnswer
  cases s.device <;> rfl

/-- A well-formed `read_byte` (R135, R51): one read cycle at its address. -/
theorem performAll_readByteOps (c : Config) (a : Addr) {s : State} (h : ClocksLow s) (hw : s.weN = true)
    (ho : s.srOeN = false) :
    performAll (readByteOps c a) s =
      { s with
        ser := a.getLsbD 0, srclk := false, rclk := false, clrN := true, sc := a, pr := a
        ceN := true, oeN := true, weN := true, dir := .input
        din := readAnswer s a 0
        rq := s.rq ++ [dataWord (readAnswer s a 0)]
        history := s.history ++ [.read a (readAnswer s a 0)]
        draws := s.draws + 1
        trace := s.trace ++ eventsOf (readAnswer s a 0) (readByteOps c a) } := by
  have hstatic : eventsOf 0#8 (setAddressOps a) = eventsOf (readAnswer s a 0) (setAddressOps a) := by
    simp [setAddressOps, clearOps, latchOps, sendBitsOps, addressBits, List.range_succ, sendBitOps, shiftOps, eventOf]
  simp only [readByteOps, ioInputOps, set1Ops, performAll_append, performAll_cons, performAll_nil, perform_dir]
  rw [performAll_setAddressOps a (by exact h.1) (by exact h.2), hstatic]
  rw [perform_set_ceN_low_of_weN (by exact hw)]
  simp only [perform_set_oeN, perform_wait, perform_sample, perform_set3_high, perform_respData]
  simp [emit, pushResponse, takeSample, sampledByte, readWellFormed, hw, ho, sampleDomain, recordCycle,
    nextDraw, sampleCycle, chipByte_eq_readAnswer, eventOf]
  simp [readAnswer]

/-- An ill-formed `read_byte` (R135 (b), R51): the same lines, a bare draw. -/
theorem performAll_readByteOps_illFormed (c : Config) (a : Addr) {s : State} (h : ClocksLow s)
    (hill : (s.weN = true ∧ s.srOeN = true) ∨ (s.ceN = false ∧ s.weN = false)) :
    performAll (readByteOps c a) s =
      { s with
        ser := a.getLsbD 0, srclk := false, rclk := false, clrN := true, sc := a, pr := a
        ceN := true, oeN := true, weN := true, dir := .input
        din := Config.freeByte s.draws
        rq := s.rq ++ [dataWord (Config.freeByte s.draws)]
        history := s.history ++ [.illFormedRead (Config.freeByte s.draws)]
        draws := s.draws + 1
        device := (leaveDomain s).device
        trace := s.trace ++ eventsOf (Config.freeByte s.draws) (readByteOps c a) } := by
  have hstatic : eventsOf 0#8 (setAddressOps a) = eventsOf (Config.freeByte s.draws) (setAddressOps a) := by
    simp [setAddressOps, clearOps, latchOps, sendBitsOps, addressBits, List.range_succ, sendBitOps, shiftOps, eventOf]
  have hce {t : State} (hc : t.ceN = s.ceN) (hw : t.weN = s.weN) :
      perform (.set .ceN false) t = emit (.set .ceN false) { t with ceN := false } := by
    rcases hill with hx | hx
    · exact perform_set_ceN_low_of_weN (hw.trans hx.1)
    · exact perform_set_ceN_low_of_ceN (hc.trans hx.1)
  have hread : (s.weN && !s.srOeN) = false := by rcases hill with hx | hx <;> simp [hx]
  simp only [readByteOps, ioInputOps, set1Ops, performAll_append, performAll_cons, performAll_nil, perform_dir]
  rw [performAll_setAddressOps a (by exact h.1) (by exact h.2), hstatic]
  rw [hce (by rfl) (by rfl)]
  simp only [perform_set_oeN, perform_wait, perform_sample, perform_set3_high, perform_respData]
  simp [emit, pushResponse, takeSample, sampledByte, readWellFormed, hread, sampleDomain, leaveDomain, recordCycle,
    nextDraw, sampleCycle, eventOf]

/-- The addresses of a list, each with what its read answers when the reads are made in order. -/
def answersOf (s : State) (as : List Addr) : List (Addr × Byte) :=
  as.zipIdx.map (fun p => (p.1, readAnswer s p.1 p.2))

theorem answersOf_concat (s : State) (as : List Addr) (a : Addr) :
    answersOf s (as ++ [a]) = answersOf s as ++ [(a, readAnswer s a as.length)] := by
  simp [answersOf, List.zipIdx_append]

@[simp] theorem answersOf_length (s : State) (as : List Addr) : (answersOf s as).length = as.length := by
  simp [answersOf]

theorem answersOf_map_fst (s : State) (as : List Addr) : (answersOf s as).map Prod.fst = as := by
  induction as using List.reverseRecOn with
  | nil => rfl
  | append_singleton as a ih => rw [answersOf_concat, List.map_append, ih]; rfl

/-- The answers of a page are those of its addresses (R137). -/
theorem pageAnswers_eq (s : State) (page pageSize : BitVec 24) :
    pageAnswers s page pageSize = answersOf s (pageAddresses page pageSize) := by
  unfold pageAnswers pageAddresses
  generalize page.toNat * pageSize.toNat = base
  induction pageSize.toNat with
  | zero => rfl
  | succ n ih =>
    rw [List.range_succ, List.map_append, List.map_append, ih, List.map_singleton, List.map_singleton,
      answersOf_concat]
    simp

/-- A run of well-formed `read_byte`s (R137): one read cycle each, in order. -/
theorem performAll_reads (c : Config) (as : List Addr) {s : State} (h : ClocksLow s) (hw : s.weN = true)
    (ho : s.srOeN = false) :
    performAll (as.flatMap (readByteOps c)) s =
      { afterReads (answersOf s as) s with
        rq := s.rq ++ ((answersOf s as).map Prod.snd).map dataWord
        trace := s.trace ++ (answersOf s as).flatMap (fun p => eventsOf p.2 (readByteOps c p.1)) } := by
  induction as using List.reverseRecOn with
  | nil =>
    cases s
    simp [answersOf, afterReads]
  | append_singleton as a ih =>
    have hF : ∃ F : State, performAll (as.flatMap (readByteOps c)) s = F ∧ ClocksLow F ∧ F.weN = true ∧
        F.srOeN = false ∧ F.device = s.device ∧ F.mem = s.mem ∧ F.draws = s.draws + as.length ∧
        F.history = s.history ++ (answersOf s as).map (fun q => .read q.1 q.2) ∧
        F.rq = s.rq ++ ((answersOf s as).map Prod.snd).map dataWord ∧
        F.trace = s.trace ++ (answersOf s as).flatMap (fun p => eventsOf p.2 (readByteOps c p.1)) ∧
        F.dout = s.dout ∧ F.cq = s.cq ∧ F.halted = s.halted ∧ F.run = s.run ∧ F.turns = s.turns ∧
        F.received = s.received := by
      refine ⟨_, ih, ?_⟩
      unfold afterReads
      split
      · rename_i hn
        have : answersOf s as = [] := by simpa using hn
        have hl : as.length = 0 := by rw [← answersOf_length s as, this]; rfl
        simp [this, h, hw, ho, hl]
      · have := clocksLow_afterAddresses ((answersOf s as).map Prod.fst) h
        simp [this, ho]
    obtain ⟨F, hFe, hFc, hFw, hFo, hd, hm, hdr, hh, hrq, htr, h1, h2, h3, h4, h5, h6⟩ := hF
    have hans : readAnswer F a 0 = readAnswer s a as.length := by
      simp [readAnswer, hd, hm, hdr]
    rw [List.flatMap_append, performAll_append, hFe, List.flatMap_singleton, performAll_readByteOps c a hFc hFw hFo,
      hans, answersOf_concat]
    simp [afterReads, afterAddresses, hd, hm, hdr, hh, hrq, htr, h1, h2, h3, h4, h5, h6, hFo, ho, Nat.add_assoc]

/-! ## Writes -/

/-- What the pairs of a batch leave of MEM, pair after pair. -/
theorem storedBy_concat (ps : List (Addr × Byte)) (p : Addr × Byte) (s : State) :
    storedBy (ps ++ [p]) s =
      match s.device with
      | .ideal => memoryWrite (storedBy ps s) p.1.toNat p.2
      | .oracle => s.mem
      | .outside => s.mem := by
  unfold storedBy
  cases s.device <;> simp [afterWrites]

@[simp] theorem storedBy_nil (s : State) : storedBy [] s = s.mem := by
  unfold storedBy; cases s.device <;> rfl

/-- One pair of `write_bytes` with the outputs on and output-enable high (R150, R52): one well-formed strobe. -/
theorem performAll_writePairOps (c : Config) (p : Addr × Byte) {s : State} (h : ClocksLow s) (ho : s.srOeN = false)
    (hoe : s.oeN = true) (hd : s.dir = .output) :
    performAll (writePairOps c p) s =
      { s with
        ser := p.1.getLsbD 0, srclk := false, rclk := false, clrN := true, sc := p.1, pr := p.1
        ceN := false, weN := false, dout := p.2
        history := s.history ++ [.strobe p.1 p.2]
        mem := storedBy [p] s
        trace := s.trace ++ eventsOf 0#8 (writePairOps c p) } := by
  rw [writePairOps, performAll_append, performAll_setAddressOps p.1 (by exact h.1) (by exact h.2)]
  simp only [performAll_cons, performAll_nil, perform_set_ceN_high, perform_set_weN_high, perform_wait, perform_data]
  rw [perform_set_ceN_low_of_weN (by rfl), perform_set_weN_low_strobes (by rfl) (by rfl)]
  simp only [presentStrobe, strobeWellFormed, emit_dir, emit_oeN, emit_srOeN, hd, hoe, ho]
  simp [emit, deviceWrite, recordCycle, storedBy, afterWrites, eventOf] <;>
    cases s.device <;> rfl

/-- One pair of `write_bytes` with the outputs off and output-enable high (R154 (e), R52): one ill-formed strobe. -/
theorem performAll_writePairOps_off (c : Config) (p : Addr × Byte) {s : State} (h : ClocksLow s)
    (ho : s.srOeN = true) :
    performAll (writePairOps c p) s =
      { s with
        ser := p.1.getLsbD 0, srclk := false, rclk := false, clrN := true, sc := p.1, pr := p.1
        ceN := false, weN := false, dout := p.2
        history := s.history ++ [.illFormedStrobe (Config.freeAddress s.draws) (Config.freeByte s.draws)]
        draws := s.draws + 1
        device := (leaveDomain s).device
        trace := s.trace ++ eventsOf 0#8 (writePairOps c p) } := by
  rw [writePairOps, performAll_append, performAll_setAddressOps p.1 (by exact h.1) (by exact h.2)]
  simp only [performAll_cons, performAll_nil, perform_set_ceN_high, perform_set_weN_high, perform_wait, perform_data]
  rw [perform_set_ceN_low_of_weN (by rfl), perform_set_weN_low_strobes (by rfl) (by rfl)]
  simp only [presentStrobe, strobeWellFormed, emit_dir, emit_oeN, emit_srOeN, ho]
  simp [emit, recordCycle, leaveDomain, nextDraw, eventOf]

/-- A batch of pairs with the outputs on (R150, R152): the k-th strobe presents the k-th pair. -/
theorem performAll_writePairs (c : Config) (ps : List (Addr × Byte)) {s : State} (h : ClocksLow s)
    (ho : s.srOeN = false) (hoe : s.oeN = true) (hd : s.dir = .output) :
    performAll (ps.flatMap (writePairOps c)) s =
      { afterAddresses (ps.map Prod.fst) s with
        ceN := s.ceN && ps.isEmpty, weN := s.weN && ps.isEmpty
        dout := (ps.getLast?.map Prod.snd).getD s.dout
        history := s.history ++ ps.map (fun p => .strobe p.1 p.2)
        mem := storedBy ps s
        trace := s.trace ++ eventsOf 0#8 (ps.flatMap (writePairOps c)) } := by
  induction ps using List.reverseRecOn with
  | nil =>
    cases s
    simp
  | append_singleton ps p ih =>
    have hc := clocksLow_afterAddresses (ps.map Prod.fst) h
    rw [List.flatMap_append, performAll_append, ih, List.flatMap_singleton,
      performAll_writePairOps c p (by exact hc) (by simpa using ho) (by simpa using hoe) (by simpa using hd),
      List.map_append, List.map_singleton, afterAddresses_concat, storedBy_concat]
    simp [storedBy, afterWrites]
    cases s.device <;> rfl

/-- `write_bytes` of pairs with the outputs on (R150). -/
theorem performAll_writePairsOps (c : Config) (ps : List (Addr × Byte)) {s : State} (h : ClocksLow s)
    (ho : s.srOeN = false) :
    performAll (writePairsOps c ps) s =
      { afterWriteBatch ps s with trace := s.trace ++ eventsOf 0#8 (writePairsOps c ps) } := by
  rw [writePairsOps, performAll_append, performAll_append, writeOpeningOps, ioOutputOps]
  simp only [List.cons_append, List.nil_append, performAll_cons, performAll_nil, perform_dir, perform_set_oeN,
    perform_wait]
  rw [performAll_writePairs c ps (by exact h) (by exact ho) (by rfl) (by rfl)]
  simp only [writeClosingOps, set1Ops, List.cons_append, List.nil_append, performAll_cons, performAll_nil,
    perform_set3_high, perform_wait]
  unfold afterWriteBatch afterAddresses
  cases ps.map Prod.fst |>.getLast? <;> simp [emit, eventOf, storedBy]

/-! ## Writes with the outputs off -/

/-- A batch of pairs with the outputs off (R154 (e), R52): every strobe is ill-formed. -/
theorem performAll_writePairs_off (c : Config) (ps : List (Addr × Byte)) {s : State} (h : ClocksLow s)
    (ho : s.srOeN = true) :
    performAll (ps.flatMap (writePairOps c)) s =
      { afterAddresses (ps.map Prod.fst) s with
        ceN := s.ceN && ps.isEmpty, weN := s.weN && ps.isEmpty
        dout := (ps.getLast?.map Prod.snd).getD s.dout
        history := s.history ++ illFormedStrobes s ps.length
        draws := s.draws + ps.length
        device := if ps = [] then s.device else (leaveDomain s).device
        trace := s.trace ++ eventsOf 0#8 (ps.flatMap (writePairOps c)) } := by
  induction ps using List.reverseRecOn with
  | nil =>
    cases s
    simp [illFormedStrobes]
  | append_singleton ps p ih =>
    have hc := clocksLow_afterAddresses (ps.map Prod.fst) h
    rw [List.flatMap_append, performAll_append, ih, List.flatMap_singleton,
      performAll_writePairOps_off c p (by exact hc) (by simpa using ho),
      List.map_append, List.map_singleton, afterAddresses_concat]
    by_cases hp : ps = [] <;> simp [hp, illFormedStrobes, List.range_succ, Nat.add_assoc, leaveDomain]
    cases s.device <;> rfl

/-- `write_bytes` of pairs with the outputs off (R154 (e)). -/
theorem performAll_writePairsOps_off (c : Config) (ps : List (Addr × Byte)) {s : State} (h : ClocksLow s)
    (ho : s.srOeN = true) :
    performAll (writePairsOps c ps) s =
      { afterWriteBatch ps s with
        history := s.history ++ illFormedStrobes s ps.length
        draws := s.draws + ps.length
        mem := s.mem
        device := if ps = [] then s.device else (leaveDomain s).device
        trace := s.trace ++ eventsOf 0#8 (writePairsOps c ps) } := by
  rw [writePairsOps, performAll_append, performAll_append, writeOpeningOps, ioOutputOps]
  simp only [List.cons_append, List.nil_append, performAll_cons, performAll_nil, perform_dir, perform_set_oeN,
    perform_wait]
  rw [performAll_writePairs_off c ps (by exact h) (by exact ho)]
  simp only [writeClosingOps, set1Ops, List.cons_append, List.nil_append, performAll_cons, performAll_nil,
    perform_set3_high, perform_wait]
  unfold afterWriteBatch afterAddresses
  cases ps.map Prod.fst |>.getLast? <;> simp [emit, eventOf, illFormedStrobes, leaveDomain]

end Sys2Proof.Machine
end

