-- ==== Sys2Proof/Laws/Counts.lean ====
section
/-! SUPPORT. How many micro-operations the lists have and how long they wait (00_scope.md R8,
70_reset_and_hazards.md R230). -/

namespace Sys2Proof.Machine

open Sys2Proof.Safety

/-! ## Lengths -/

theorem sendBitsOps_length (bits : List Level) : (sendBitsOps bits).length = 3 * bits.length := by
  induction bits with
  | nil => rfl
  | cons b bits ih =>
    simp only [sendBitsOps, sendBitOps, shiftOps, List.flatMap_cons, List.length_append, List.length_cons,
      List.length_nil] at ih ⊢
    omega

theorem setAddressOps_length (a : Addr) : (setAddressOps a).length = 76 := by
  simp [setAddressOps, clearOps, latchOps, sendBitsOps_length, addressBits]

theorem readByteOps_length (c : Config) (a : Addr) : (readByteOps c a).length = 83 := by
  simp [readByteOps, setAddressOps_length, ioInputOps, set1Ops]

theorem writePairOps_length (c : Config) (p : Addr × Byte) : (writePairOps c p).length = 83 := by
  simp [writePairOps, setAddressOps_length]

theorem flatMap_length {α β : Type} (f : α → List β) (n : Nat) (h : ∀ a, (f a).length = n) (xs : List α) :
    (xs.flatMap f).length = n * xs.length := by
  induction xs with
  | nil => rfl
  | cons x xs ih => rw [List.flatMap_cons, List.length_append, h, ih, List.length_cons, Nat.mul_succ]; omega

theorem writePairsOps_length (c : Config) (ps : List (Addr × Byte)) :
    (writePairsOps c ps).length = 6 + 83 * ps.length := by
  simp only [writePairsOps, writeOpeningOps, writeClosingOps, ioOutputOps, set1Ops, List.length_append,
    flatMap_length _ 83 (writePairOps_length c), List.length_cons, List.length_nil]
  omega

/-! ## Waits -/

theorem totalWait_append (ms ns : List Micro) : totalWait (ms ++ ns) = totalWait ms + totalWait ns := by
  induction ms with
  | nil => simp [totalWait]
  | cons m ms ih => cases m <;> simp [totalWait, ih, Nat.add_assoc]

theorem totalWait_flatMap {α : Type} (f : α → List Micro) (n : Nat) (h : ∀ a, totalWait (f a) = n) (xs : List α) :
    totalWait (xs.flatMap f) = xs.length * n := by
  induction xs with
  | nil => simp [totalWait]
  | cons x xs ih => rw [List.flatMap_cons, totalWait_append, h, ih, List.length_cons, Nat.succ_mul]; omega

theorem totalWait_sendBitsOps (bits : List Level) : totalWait (sendBitsOps bits) = 0 := by
  rw [sendBitsOps, totalWait_flatMap _ 0 (fun _ => rfl), Nat.mul_zero]

theorem totalWait_setAddressOps (a : Addr) : totalWait (setAddressOps a) = 0 := by
  simp [setAddressOps, totalWait_append, totalWait_sendBitsOps, clearOps, latchOps, totalWait]

theorem totalWait_readByteOps (c : Config) (a : Addr) : totalWait (readByteOps c a) = c.tReadAccess := by
  simp [readByteOps, totalWait_append, totalWait_setAddressOps, ioInputOps, set1Ops, totalWait]

theorem totalWait_writePairOps (c : Config) (p : Addr × Byte) :
    totalWait (writePairOps c p) = c.tWriteSetup + c.tWriteData := by
  simp [writePairOps, totalWait_append, totalWait_setAddressOps, totalWait]

theorem totalWait_writePairsOps (c : Config) (ps : List (Addr × Byte)) : totalWait (writePairsOps c ps) =
    c.tOePulse + ps.length * (c.tWriteSetup + c.tWriteData) + c.tWriteSettle := by
  simp only [writePairsOps, writeOpeningOps, writeClosingOps, ioOutputOps, set1Ops, totalWait_append,
    totalWait_flatMap _ _ (totalWait_writePairOps c), List.cons_append, List.nil_append, totalWait]
  omega

end Sys2Proof.Machine
end

