-- ==== Sys2Proof/Laws/Encoding.lean ====
section
/-! SUPPORT. What the encoding's pieces do: the fields of a packed word, and the scan of a list of operand words
(30_encoding.md R71, R72, R77). -/

namespace Sys2Proof

/-! ## Packed words -/

/-- The operation code of a packed word is its high byte (R71). -/
theorem opField_packWord (high : Byte) (low : BitVec 24) : opField (packWord high low) = high := by
  apply BitVec.eq_of_getLsbD_eq
  intro k hk
  simp only [opField, packWord, BitVec.getLsbD_extractLsb', BitVec.getLsbD_append]
  simp [hk]

theorem highField_packWord (high : Byte) (low : BitVec 24) : highField (packWord high low) = high :=
  opField_packWord high low

theorem lowField_packWord (high : Byte) (low : BitVec 24) : lowField (packWord high low) = low := by
  apply BitVec.eq_of_getLsbD_eq
  intro k hk
  simp only [lowField, packWord, BitVec.getLsbD_extractLsb', BitVec.getLsbD_append]
  simp [hk]

theorem byteField_packWord (high v : Byte) : byteField (packWord high (v.setWidth 24)) = v := by
  apply BitVec.eq_of_getLsbD_eq
  intro k hk
  have : k < 24 := by omega
  simp only [byteField, packWord, BitVec.getLsbD_extractLsb', BitVec.getLsbD_append]
  simp [hk, this]

/-- A word is its two fields (R71). -/
theorem packWord_fields (w : Word) : packWord (opField w) (lowField w) = w := by
  apply BitVec.eq_of_getLsbD_eq
  intro k hk
  simp only [lowField, opField, packWord, BitVec.getLsbD_extractLsb', BitVec.getLsbD_append]
  by_cases h : k < 24
  · simp [h]
  · have h1 : k - 24 < 8 := by omega
    have h2 : 24 + (k - 24) = k := by omega
    simp [h, h1, h2]

/-- A word with a zero high byte is its low field (R72). -/
theorem packWord_lowField {w : Word} (h : highField w = 0#8) : packWord 0#8 (lowField w) = w := by
  have := packWord_fields w
  rwa [show opField w = highField w from rfl, h] at this

theorem addressWordMbz_packWord (a : Addr) : addressWordMbz (packWord 0#8 a) = true := by
  simp [addressWordMbz, highField_packWord]

theorem dataWordMbz_packWord (v : Byte) : dataWordMbz (packWord 0#8 (v.setWidth 24)) = true := by
  have : (packWord 0#8 (v.setWidth 24)).extractLsb' 8 24 = 0#24 := by
    apply BitVec.eq_of_getLsbD_eq
    intro k hk
    simp only [packWord, BitVec.getLsbD_extractLsb', BitVec.getLsbD_append, hk]
    by_cases h : 8 + k < 24 <;> simp [h]
  simp [dataWordMbz, this]

/-! ## The scan of operand words -/

/-- A scan of well-formed words takes them all (R77). -/
theorem scanWords_good {α : Type} (mbz : Word → Bool) (get : Word → α) (ws more : List Word)
    (h : ∀ w ∈ ws, mbz w = true) : scanWords mbz get ws.length (ws ++ more) = .done (ws.map get) more := by
  induction ws with
  | nil => rfl
  | cons w ws ih =>
    have hw := h w (by simp)
    have ht := ih (fun x hx => h x (by simp [hx]))
    simp [scanWords, hw, ht]

/-- A scan of encoded operands gives the operands back (R79). -/
theorem scanWords_map {α : Type} (mbz : Word → Bool) (get : Word → α) (put : α → Word)
    (hm : ∀ x, mbz (put x) = true) (hg : ∀ x, get (put x) = x) (xs : List α) (rest : List Word) :
    scanWords mbz get xs.length (xs.map put ++ rest) = .done xs rest := by
  induction xs with
  | nil => rfl
  | cons x xs ih => simp [scanWords, hm, hg, ih]

/-- A bad word among those of a scan is a reserved field (R77). -/
theorem scanWords_reserved {α : Type} (mbz : Word → Bool) (get : Word → α) (ws more : List Word)
    (h : ∃ w ∈ ws, mbz w = false) : scanWords mbz get ws.length (ws ++ more) = .reserved := by
  induction ws with
  | nil => simp at h
  | cons w ws ih =>
    simp only [scanWords, List.length_cons, List.cons_append]
    cases hm : mbz w
    · simp
    · have : ∃ w ∈ ws, mbz w = false := by
        obtain ⟨x, hx, hx2⟩ := h
        rcases List.mem_cons.mp hx with rfl | hx
        · rw [hm] at hx2; cases hx2
        · exact ⟨x, hx, hx2⟩
      simp [ih this]

/-- What a completed scan has read: the first `n` words, all of them well-formed. -/
theorem scanWords_done {α : Type} {mbz : Word → Bool} {get : Word → α} {n : Nat} {ws : List Word} {xs : List α}
    {rest : List Word} (h : scanWords mbz get n ws = .done xs rest) :
    n ≤ ws.length ∧ xs = (ws.take n).map get ∧ rest = ws.drop n ∧ (∀ w ∈ ws.take n, mbz w = true) ∧
      xs.length = n := by
  induction n generalizing ws xs with
  | zero => cases h; simp
  | succ n ih =>
    cases ws with
    | nil => cases h
    | cons w ws =>
      simp only [scanWords] at h
      split at h
      · rename_i hm
        split at h
        · rename_i xs' rest' h'
          cases h
          obtain ⟨h1, h2, h3, h4, h5⟩ := ih h'
          refine ⟨by simpa using h1, by simp [← h2], by simp [h3], ?_, by simp [h5]⟩
          intro x hx
          rw [List.take_succ_cons, List.mem_cons] at hx
          rcases hx with rfl | hx
          · exact hm
          · exact h4 _ hx
        · cases h
        · cases h
      · cases h

/-- Words appended to a queue do not change the answer of a scan that has one (R77). -/
theorem scanWords_append {α : Type} (mbz : Word → Bool) (get : Word → α) (n : Nat) (ws more : List Word) :
    match scanWords mbz get n ws with
    | .done xs rest => scanWords mbz get n (ws ++ more) = .done xs (rest ++ more)
    | .reserved => scanWords mbz get n (ws ++ more) = .reserved
    | .needMore => True := by
  induction n generalizing ws with
  | zero => simp [scanWords]
  | succ n ih =>
    cases ws with
    | nil => simp [scanWords]
    | cons w ws =>
      have := ih ws
      simp only [scanWords, List.cons_append]
      cases hm : mbz w
      · simp
      · simp only [if_true]
        cases hs : scanWords mbz get n ws with
        | done xs rest => rw [hs] at this; simp only [this]
        | reserved => rw [hs] at this; simp only [this]
        | needMore => simp

end Sys2Proof
end

