-- ==== Sys2Proof/Laws/Frame.lean ====
section
/-! SUPPORT. What micro-operations do not touch: the host's side (CQ, RUN, the schedule, the received words) and, but for
appended responses, RQ (10_state.md R34, R35, R38). -/

namespace Sys2Proof.Machine

open Sys2Proof.Safety

/-- The words a micro-operation pushes on RQ (R78). -/
def responses (m : Micro) (s : State) : List Word :=
  match m with
  | .resp w => [w]
  | .respData => [dataWord s.din]
  | .set _ _ | .set3 _ | .dir _ | .data _ | .wait _ | .sample => []

/-- The state with another host's side: queues, command in progress, schedule, received words. -/
def withHostSide (cq rq : List Word) (run : List Micro) (turns : List Turn) (received : List Word) (s : State) : State :=
  { s with cq := cq, rq := rq, run := run, turns := turns, received := received }

theorem strobeIfNew_withHostSide (cq rq : List Word) (run : List Micro) (turns : List Turn) (received : List Word)
    (before after : State) :
    strobeIfNew (withHostSide cq rq run turns received before) (withHostSide cq rq run turns received after) =
      withHostSide cq rq run turns received (strobeIfNew before after) := by
  have h : strobeWellFormed (withHostSide cq rq run turns received after) = strobeWellFormed after := rfl
  have h1 : strobeLevels (withHostSide cq rq run turns received after) = strobeLevels after := rfl
  have h2 : strobeLevels (withHostSide cq rq run turns received before) = strobeLevels before := rfl
  unfold strobeIfNew presentStrobe
  rw [h, h1, h2]
  split
  · split <;> rfl
  · rfl

/-- A micro-operation does the same whatever the host's side is, and on the host's side it only appends its responses to
RQ (R38). -/
theorem perform_withHostSide (m : Micro) (cq rq : List Word) (run : List Micro) (turns : List Turn)
    (received : List Word) (s : State) :
    perform m (withHostSide cq rq run turns received s) =
      withHostSide cq (rq ++ responses m s) run turns received (perform m s) := by
  have hs (l : Line) (v : Level) : setLine l v (withHostSide cq rq run turns received s) =
      withHostSide cq rq run turns received (setLine l v s) := by
    cases l <;> rfl
  have ht : takeSample (withHostSide cq rq run turns received s) =
      withHostSide cq rq run turns received (takeSample s) := by
    have hr : readWellFormed (withHostSide cq rq run turns received s) = readWellFormed s := rfl
    have hb : sampledByte (withHostSide cq rq run turns received s) = sampledByte s := rfl
    unfold takeSample sampleDomain sampleCycle
    rw [hb, hr]
    split <;> rfl
  have hn : rq ++ [] = rq := by simp
  cases m with
  | set l v =>
    simp only [perform, responses, hs, strobeIfNew_withHostSide, hn]
    rfl
  | set3 v =>
    have h3 : setThree v (withHostSide cq rq run turns received s) =
        withHostSide cq rq run turns received (setThree v s) := rfl
    simp only [perform, responses, h3, strobeIfNew_withHostSide, hn]
    rfl
  | sample =>
    simp only [perform, responses, ht, hn]
    rfl
  | _ =>
    simp only [perform, responses, hn]
    rfl

theorem withHostSide_self (s : State) : withHostSide s.cq s.rq s.run s.turns s.received s = s := rfl

/-- What a micro-operation leaves of the host's side (R38, R78). -/
theorem perform_hostSide (m : Micro) (s : State) :
    (perform m s).cq = s.cq ∧ (perform m s).rq = s.rq ++ responses m s ∧ (perform m s).run = s.run ∧
      (perform m s).turns = s.turns ∧ (perform m s).received = s.received ∧ (perform m s).halted = s.halted := by
  have h := perform_withHostSide m s.cq s.rq s.run s.turns s.received s
  rw [withHostSide_self] at h
  refine ⟨?_, ?_, ?_, ?_, ?_, ?_⟩
  · rw [h]; rfl
  · rw [h]; rfl
  · rw [h]; rfl
  · rw [h]; rfl
  · rw [h]; rfl
  · have hs (before after : State) : (strobeIfNew before after).halted = after.halted := by
      rcases strobeIfNew_cases before after with e | ⟨-, e⟩ | ⟨-, e⟩ <;> rw [e] <;> rfl
    have hd : (sampleDomain s).halted = s.halted := by unfold sampleDomain; split <;> rfl
    cases m with
    | set l v => cases l <;> simp [perform, hs, setLine]
    | _ => simp [perform, hs, hd, takeSample]

/-- A list of micro-operations does the same whatever the host's side is; the responses it pushes are a list of its own
(R38). -/
theorem performAll_withHostSide (ms : List Micro) (s : State) : ∃ new : List Word,
    ∀ (cq rq : List Word) (run : List Micro) (turns : List Turn) (received : List Word),
      performAll ms (withHostSide cq rq run turns received s) =
        withHostSide cq (rq ++ new) run turns received (performAll ms s) := by
  induction ms generalizing s with
  | nil => exact ⟨[], fun _ _ _ _ _ => by simp⟩
  | cons m ms ih =>
    obtain ⟨new, h⟩ := ih (perform m s)
    refine ⟨responses m s ++ new, fun cq rq run turns received => ?_⟩
    rw [performAll_cons, perform_withHostSide, h, List.append_assoc]
    rfl

/-- What a list of micro-operations leaves of the host's side (R38). -/
theorem performAll_hostSide (ms : List Micro) (s : State) :
    (performAll ms s).cq = s.cq ∧ (∃ new, (performAll ms s).rq = s.rq ++ new) ∧ (performAll ms s).run = s.run ∧
      (performAll ms s).turns = s.turns ∧ (performAll ms s).received = s.received ∧
      (performAll ms s).halted = s.halted := by
  induction ms generalizing s with
  | nil => exact ⟨rfl, ⟨[], by simp⟩, rfl, rfl, rfl, rfl⟩
  | cons m ms ih =>
    obtain ⟨h1, ⟨new, h2⟩, h3, h4, h5, h6⟩ := ih (perform m s)
    obtain ⟨g1, g2, g3, g4, g5, g6⟩ := perform_hostSide m s
    rw [performAll_cons]
    exact ⟨h1.trans g1, ⟨responses m s ++ new, by rw [h2, g2, List.append_assoc]⟩, h3.trans g3, h4.trans g4,
      h5.trans g5, h6.trans g6⟩

/-- Micro-operations that push nothing leave RQ alone (R78). -/
theorem performAll_rq_of_silent {ms : List Micro} (h : ∀ m ∈ ms, ∀ s, responses m s = []) (s : State) :
    (performAll ms s).rq = s.rq := by
  induction ms generalizing s with
  | nil => rfl
  | cons m ms ih =>
    rw [performAll_cons, ih (fun x hx => h x (by simp [hx])), (perform_hostSide m s).2.1, h m (by simp), List.append_nil]

/-- `set_address` pushes no response of its own. -/
theorem setAddressOps_silent (a : Addr) : ∀ m ∈ setAddressOps a, ∀ s, responses m s = [] := by
  intro m hm s
  simp only [setAddressOps, clearOps, latchOps, sendBitsOps, sendBitOps, shiftOps, List.mem_append, List.mem_flatMap,
    List.mem_cons, List.not_mem_nil, or_false] at hm
  rcases hm with ((rfl | rfl) | ⟨b, -, rfl | rfl | rfl⟩) | rfl | rfl <;> rfl

/-- `write_bytes` pushes no response before its DONE (R150). -/
theorem writePairsOps_silent (c : Config) (ps : List (Addr × Byte)) :
    ∀ m ∈ writePairsOps c ps, ∀ s, responses m s = [] := by
  intro m hm s
  simp only [writePairsOps, writeOpeningOps, writeClosingOps, writePairOps, ioOutputOps, set1Ops, List.mem_append,
    List.mem_flatMap, List.mem_cons, List.not_mem_nil, or_false] at hm
  rcases hm with ((rfl | rfl | rfl | rfl) | ⟨p, -, h | rfl | rfl | rfl | rfl | rfl | rfl | rfl⟩) | rfl | rfl
  case inl.inr.inl => exact setAddressOps_silent _ m h s
  all_goals rfl

end Sys2Proof.Machine
end

