-- ==== Sys2Proof/Laws/Exec.lean ====
section
/-! SUPPORT. What exec and the controller's steps are, in terms of the shared operations (10_state.md R38). -/

namespace Sys2Proof.Machine

open Sys2Proof.Safety

/-! ## The lists of the composite commands, by name; unfold a batch by these, never by computing with literal pairs -/

/-- R106 -/
theorem expand_sendByte (c : Config) (value : Byte) : expand c (.sendByte value) = sendByteOps value := rfl

/-- R124 -/
theorem expand_setAddress (c : Config) (addr : Addr) : expand c (.setAddress addr) = setAddressOps addr := rfl

/-- R135 -/
theorem expand_readByte (c : Config) (addr : Addr) : expand c (.readByte addr) = readByteOps c addr := rfl

/-- R137 -/
theorem expand_readPage (c : Config) (page pageSize : BitVec 24) :
    expand c (.readPage page pageSize) = (pageAddresses page pageSize).flatMap (readByteOps c) := rfl

/-- R150 -/
theorem expand_writeBytes (c : Config) (addresses : List Addr) (data : List Byte) :
    expand c (.writeBytes addresses data) = writePairsOps c (addresses.zip data) := rfl

/-- R166 -/
theorem expand_enableProtection (c : Config) :
    expand c .enableProtection = writePairsOps c (enableProtectionPairs c) ++ [.wait c.tCmdSettle] := rfl

/-- R167 -/
theorem expand_disableProtection (c : Config) :
    expand c .disableProtection = writePairsOps c (disableProtectionPairs c) ++ [.wait c.tCmdSettle] := rfl

/-- R168 -/
theorem expand_eraseChip (c : Config) :
    expand c .eraseChip = writePairsOps c (eraseChipPairs c) ++ [.wait c.tCmdSettle] := rfl

/-! ## What exec and the steps are -/

/-- A well-formed command is its list of micro-operations and its DONE response (R38). -/
theorem exec_of_wellFormed {i : Instr} (h : i.WellFormed) (s : State) :
    exec i s = .next (runCommand (opcodeOf i) (expand parameters i) s) := by
  cases i with
  | readPage page pageSize => simp only [exec, execReadPage]; rw [if_pos h]; rfl
  | _ => rfl

/-- A page out of range is the error entry (R181). -/
theorem exec_readPage_outOfRange {page pageSize : BitVec 24} (h : ¬ pageInRange page pageSize) (s : State) :
    exec (.readPage page pageSize) s = .next (errorEntry .addressRange 0x16#8 s) := by
  simp only [exec, execReadPage]; rw [if_neg h]

/-- Every command answers a next state: its list run to DONE, or for a page out of range the error entry. -/
theorem exec_cases (i : Instr) (s : State) :
    (i.WellFormed ∧ exec i s = .next (runCommand (opcodeOf i) (expand parameters i) s)) ∨
    exec i s = .next (runCommand (opcodeOf i) (expand parameters i) s) ∨
    exec i s = .next (errorEntry .addressRange 0x16#8 s) := by
  cases i with
  | readPage page pageSize =>
    by_cases h : pageInRange page pageSize
    · exact .inl ⟨h, exec_of_wellFormed h s⟩
    · exact .inr (.inr (exec_readPage_outOfRange h s))
  | _ => exact .inr (.inl rfl)

/-- A word pushed first is a word pushed after (R38). -/
theorem performAll_hostPush (ms : List Micro) (w : Word) (s : State) :
    performAll ms (hostPush w s) = hostPush w (performAll ms s) := by
  obtain ⟨new, hn⟩ := performAll_withHostSide ms s
  have h1 : performAll ms (hostPush w s) = _ := hn (s.cq ++ [w]) s.rq s.run s.turns s.received
  have h2 : performAll ms s = _ := hn s.cq s.rq s.run s.turns s.received
  rw [h1, h2]
  rfl

/-- A word popped first is a word popped after, where there is one to pop (R38). -/
theorem performAll_hostPop (ms : List Micro) {s : State} (h : s.rq ≠ []) :
    performAll ms (hostPop s) = hostPop (performAll ms s) := by
  obtain ⟨new, hn⟩ := performAll_withHostSide ms s
  obtain ⟨w, ws, hw⟩ := List.exists_cons_of_ne_nil h
  have h0 : hostPop s = withHostSide s.cq ws s.run s.turns (s.received ++ [w]) s := by
    simp [hostPop, hw, withHostSide]
  have h2 : performAll ms s = _ := hn s.cq s.rq s.run s.turns s.received
  rw [h0, hn, h2, hw]
  rfl

/-- RUN does not matter to the micro-operations themselves. -/
theorem performAll_withRun (ms run : List Micro) (s : State) :
    performAll ms { s with run := run } = { performAll ms s with run := run } := by
  obtain ⟨new, hn⟩ := performAll_withHostSide ms s
  have h1 : performAll ms { s with run := run } = _ := hn s.cq s.rq run s.turns s.received
  have h2 : performAll ms s = _ := hn s.cq s.rq s.run s.turns s.received
  rw [h1, h2]
  rfl

/-- Every case of one controller step (R38). -/
theorem controllerStep_cases (s : State) :
    (∃ m rest, s.run = m :: rest ∧ controllerStep s = perform m { s with run := rest }) ∨
    (s.run = [] ∧ s.halted = true ∧ controllerStep s = s) ∨
    (s.run = [] ∧ s.halted = false ∧ ∃ i n, decode s.cq = .ok i n ∧ controllerStep s = fetch i n s) ∨
    (s.run = [] ∧ s.halted = false ∧ ∃ code op, decode s.cq = .error code op ∧
      controllerStep s = errorEntry code op s) ∨
    (s.run = [] ∧ s.halted = false ∧ decode s.cq = .needMore ∧ controllerStep s = s) := by
  unfold controllerStep
  cases hr : s.run with
  | cons m rest => exact .inl ⟨m, rest, rfl, rfl⟩
  | nil =>
    cases hh : s.halted with
    | true => simp
    | false => cases hd : decode s.cq <;> simp

/-- A controller step inside a command performs the head of RUN (R38). -/
theorem controllerStep_of_run {s : State} {m : Micro} {rest : List Micro} (h : s.run = m :: rest) :
    controllerStep s = perform m { s with run := rest } := by
  unfold controllerStep
  rw [h]

/-- As many controller steps as RUN has micro-operations perform them all (R38). -/
theorem controllerSteps_of_run (ms : List Micro) {s : State} (h : s.run = ms) :
    controllerSteps ms.length s = { performAll ms s with run := [] } := by
  induction ms generalizing s with
  | nil => cases s; subst h; rfl
  | cons m ms ih =>
    have h1 : perform m { s with run := ms } = { perform m s with run := ms } := performAll_withRun [m] ms s
    rw [List.length_cons, controllerSteps, controllerStep_of_run h, h1, ih rfl, performAll_withRun, performAll_cons]

/-- Every case of one step that answers a next state (R38, R210). -/
theorem step_cases {s t : State} (h : step s = .next t) :
    (∃ turn rest, s.turns = turn :: rest ∧ t = takeTurn turn { s with turns := rest }) ∨
    (s.turns = [] ∧ ∃ m rest, s.run = m :: rest ∧ t = perform m { s with run := rest }) ∨
    (s.turns = [] ∧ s.run = [] ∧ s.halted = false ∧ ∃ i n, decode s.cq = .ok i n ∧
      exec i (takeWords n s) = .next t) ∨
    (s.turns = [] ∧ s.run = [] ∧ s.halted = false ∧ ∃ code op, decode s.cq = .error code op ∧
      t = errorEntry code op s) ∨
    (s.turns = [] ∧ s.run = [] ∧ s.halted = false ∧ decode s.cq = .needMore ∧ t = s) := by
  unfold step nextMove at h
  cases ht : s.turns with
  | cons turn rest =>
    simp only [ht, Host.Outcome.next.injEq] at h
    exact .inl ⟨turn, rest, rfl, h.symm⟩
  | nil =>
    simp only [ht] at h
    cases hr : s.run with
    | cons m rest =>
      simp only [hr, Host.Outcome.next.injEq] at h
      exact .inr (.inl ⟨rfl, m, rest, rfl, h.symm⟩)
    | nil =>
      simp only [hr] at h
      cases hh : s.halted with
      | true => simp [hh] at h
      | false =>
        simp only [hh] at h
        cases hd : decode s.cq with
        | ok i n =>
          simp only [hd] at h
          exact .inr (.inr (.inl ⟨rfl, rfl, rfl, i, n, rfl, by simpa using h⟩))
        | error code op =>
          simp only [hd] at h
          exact .inr (.inr (.inr (.inl ⟨rfl, rfl, rfl, code, op, rfl, by simpa using h.symm⟩)))
        | needMore =>
          simp only [hd] at h
          exact .inr (.inr (.inr (.inr ⟨rfl, rfl, rfl, rfl, by simpa using h.symm⟩)))

end Sys2Proof.Machine
end

