-- ==== Sys2Proof/Laws/Memory.lean ====
section
/-! SUPPORT. The memory of the ideal device: read after write, and the canonical form is kept by every operation. -/

namespace Sys2Proof.Machine

open Sys2Proof.Safety

/-- Nothing is listed below the bound of a canonical memory. -/
theorem memoryRead_of_lt {lo a : Nat} {m : Memory} (h : memoryWfFrom lo m = true) (ha : a < lo) :
    memoryRead m a = memoryFill := by
  induction m generalizing lo with
  | nil => rfl
  | cons c m ih =>
    obtain ⟨k, b⟩ := c
    simp only [memoryWfFrom, Bool.and_eq_true, decide_eq_true_eq] at h
    rw [memoryRead, if_neg (by omega)]
    exact ih h.2 (by omega)

/-- A canonical memory stays one when its bound is lowered. -/
theorem memoryWfFrom_mono {lo lo' : Nat} {m : Memory} (h : memoryWfFrom lo m = true) (hl : lo' ≤ lo) :
    memoryWfFrom lo' m = true := by
  cases m with
  | nil => rfl
  | cons c m =>
    obtain ⟨k, b⟩ := c
    simp only [memoryWfFrom, Bool.and_eq_true, decide_eq_true_eq] at h ⊢
    exact ⟨⟨⟨by omega, h.1.1.2⟩, h.1.2⟩, h.2⟩

theorem memoryRead_cell_append (a v : Nat) (b : Byte) (m : Memory) :
    memoryRead (memoryCell v b ++ m) a = if a = v ∧ b ≠ memoryFill then b else memoryRead m a := by
  unfold memoryCell
  by_cases hb : b = memoryFill
  · simp [hb]
  · by_cases ha : v = a
    · simp [hb, memoryRead, ha]
    · have ha' : ¬ a = v := fun h => ha h.symm
      simp [hb, memoryRead, ha, ha']

/-- Reading the address written gives the byte written (R64). -/
theorem memoryRead_write_same {lo : Nat} {m : Memory} (h : memoryWfFrom lo m = true) (a : Nat) (v : Byte) :
    memoryRead (memoryWrite m a v) a = v := by
  induction m generalizing lo with
  | nil =>
    have := memoryRead_cell_append a a v []
    simp only [List.append_nil] at this
    rw [memoryWrite, this]
    by_cases hv : v = memoryFill <;> simp [hv, memoryRead]
  | cons c m ih =>
    obtain ⟨k, b⟩ := c
    simp only [memoryWfFrom, Bool.and_eq_true, decide_eq_true_eq] at h
    rw [memoryWrite]
    by_cases hlt : a < k
    · rw [if_pos hlt, memoryRead_cell_append]
      by_cases hv : v = memoryFill
      · rw [if_neg (by simp [hv]), memoryRead, if_neg (by omega), hv]
        exact memoryRead_of_lt h.2 (by omega)
      · rw [if_pos ⟨rfl, hv⟩]
    · rw [if_neg hlt]
      by_cases heq : a = k
      · rw [if_pos heq, memoryRead_cell_append]
        by_cases hv : v = memoryFill
        · rw [if_neg (by simp [hv]), hv]
          exact memoryRead_of_lt h.2 (by omega)
        · rw [if_pos ⟨rfl, hv⟩]
      · rw [if_neg heq, memoryRead, if_neg (by omega)]
        exact ih h.2

/-- Every other address holds what it held (R64). -/
theorem memoryRead_write_other (m : Memory) {a n : Nat} (v : Byte) (hn : n ≠ a) :
    memoryRead (memoryWrite m a v) n = memoryRead m n := by
  induction m with
  | nil =>
    have := memoryRead_cell_append n a v []
    simp only [List.append_nil] at this
    rw [memoryWrite, this, if_neg (by tauto)]
  | cons c m ih =>
    obtain ⟨k, b⟩ := c
    rw [memoryWrite]
    by_cases hlt : a < k
    · rw [if_pos hlt, memoryRead_cell_append, if_neg (by tauto)]
    · rw [if_neg hlt]
      by_cases heq : a = k
      · rw [if_pos heq, memoryRead_cell_append, if_neg (by tauto), memoryRead, if_neg (by omega)]
      · rw [if_neg heq, memoryRead, memoryRead, ih]

theorem memoryWfFrom_cell_append {lo a : Nat} {v : Byte} {m : Memory} (hlo : lo ≤ a) (ha : a < 2 ^ 24)
    (hm : memoryWfFrom (a + 1) m = true) : memoryWfFrom lo (memoryCell a v ++ m) = true := by
  unfold memoryCell
  by_cases hv : v = memoryFill
  · rw [if_pos hv]
    exact memoryWfFrom_mono hm (by omega)
  · rw [if_neg hv]
    simp [memoryWfFrom, hlo, hv, hm]
    omega

theorem memoryWfFrom_write {lo : Nat} {m : Memory} (h : memoryWfFrom lo m = true) {a : Nat} (v : Byte) (hlo : lo ≤ a)
    (ha : a < 2 ^ 24) : memoryWfFrom lo (memoryWrite m a v) = true := by
  induction m generalizing lo with
  | nil =>
    have := memoryWfFrom_cell_append (v := v) (m := []) hlo ha rfl
    simpa [memoryWrite] using this
  | cons c m ih =>
    obtain ⟨k, b⟩ := c
    have h' := h
    simp only [memoryWfFrom, Bool.and_eq_true, decide_eq_true_eq] at h'
    rw [memoryWrite]
    by_cases hlt : a < k
    · rw [if_pos hlt]
      apply memoryWfFrom_cell_append hlo ha
      simp only [memoryWfFrom, Bool.and_eq_true, decide_eq_true_eq]
      exact ⟨⟨⟨by omega, h'.1.1.2⟩, h'.1.2⟩, h'.2⟩
    · rw [if_neg hlt]
      by_cases heq : a = k
      · rw [if_pos heq]
        exact memoryWfFrom_cell_append hlo ha (by rw [heq]; exact h'.2)
      · rw [if_neg heq]
        simp only [memoryWfFrom, Bool.and_eq_true, decide_eq_true_eq]
        exact ⟨h'.1, ih h'.2 (by omega)⟩

/-- A write keeps the canonical form (R64). -/
theorem wf_memoryWrite {m : Memory} (h : Memory.wf m = true) (a : Addr) (v : Byte) :
    Memory.wf (memoryWrite m a.toNat v) = true :=
  memoryWfFrom_write h v (Nat.zero_le _) a.isLt

/-- A device write keeps the canonical form. -/
theorem wf_deviceWrite {s : State} (h : Memory.wf s.mem = true) : Memory.wf (deviceWrite s).mem = true := by
  unfold deviceWrite
  cases s.device
  · exact h
  · exact wf_memoryWrite h s.pr s.dout
  · exact h

/-- Every micro-operation keeps the canonical form. -/
theorem wf_perform (m : Micro) {s : State} (h : Memory.wf s.mem = true) : Memory.wf (perform m s).mem = true := by
  have hs (before after : State) (ha : Memory.wf after.mem = true) :
      Memory.wf (strobeIfNew before after).mem = true := by
    rcases strobeIfNew_cases before after with e | ⟨-, e⟩ | ⟨-, e⟩ <;> rw [e]
    · exact ha
    · exact wf_deviceWrite ha
    · exact ha
  have hd : (sampleDomain s).mem = s.mem := by unfold sampleDomain; split <;> rfl
  cases m with
  | set l v => cases l <;> exact hs _ _ h
  | set3 v => exact hs _ _ h
  | sample => simpa [perform, takeSample, hd] using h
  | _ => exact h

/-- Every list of micro-operations keeps the canonical form. -/
theorem wf_performAll (ms : List Micro) {s : State} (h : Memory.wf s.mem = true) :
    Memory.wf (performAll ms s).mem = true := by
  induction ms generalizing s with
  | nil => exact h
  | cons m ms ih => exact ih (wf_perform m h)

end Sys2Proof.Machine
end

