-- ==== Sys2Proof/Laws/Judge.lean ====
section
/-! SUPPORT. What a micro-operation adds to the recorded history and what the judge makes of it (20_memory.md R51, R52,
R64). -/

namespace Sys2Proof.Machine

open Sys2Proof.Safety

/-- A history is judged as its parts, one after the other. -/
theorem judge_append (m : Memory) (as bs : List BusCycle) :
    judge m (as ++ bs) = (judge m as).bind (fun n => judge n bs) := by
  induction as generalizing m with
  | nil => rfl
  | cons c as ih =>
    cases c with
    | read a v => simp only [List.cons_append, judge]; split <;> simp [ih]
    | strobe a v => simp only [List.cons_append, judge, ih]
    | _ => rfl

/-- What a strobe adds to the history. -/
theorem strobeIfNew_cycle {before after : State} :
    ((strobeIfNew before after).history = after.history ∧ (strobeIfNew before after).device = after.device ∧
      (strobeIfNew before after).mem = after.mem) ∨
    (∃ a v, (strobeIfNew before after).history = after.history ++ [.strobe a v] ∧
      (strobeIfNew before after).device = after.device ∧
      (after.device = .ideal → (strobeIfNew before after).mem = memoryWrite after.mem a.toNat v)) ∨
    (∃ c, inDomain c = false ∧ (strobeIfNew before after).history = after.history ++ [c] ∧
      (strobeIfNew before after).device = (leaveDomain after).device ∧
      (strobeIfNew before after).mem = after.mem) := by
  rcases strobeIfNew_cases before after with h | ⟨-, h⟩ | ⟨-, h⟩ <;> rw [h]
  · exact .inl ⟨rfl, rfl, rfl⟩
  · refine .inr (.inl ⟨after.pr, after.dout, rfl, rfl, fun hi => ?_⟩)
    simp [recordCycle, deviceWrite, hi]
  · exact .inr (.inr ⟨.illFormedStrobe (Config.freeAddress after.draws) (Config.freeByte after.draws), rfl, rfl, rfl,
      rfl⟩)

/-- What a micro-operation adds to the history: nothing, a read answered from MEM by the ideal device, a strobe stored by
it, or a cycle outside its domain (R51, R52, R64). -/
theorem perform_cycle (m : Micro) (s : State) :
    ((perform m s).history = s.history ∧ (perform m s).device = s.device ∧ (perform m s).mem = s.mem) ∨
    (∃ a v, (perform m s).history = s.history ++ [.read a v] ∧ (perform m s).device = s.device ∧
      (perform m s).mem = s.mem ∧ (s.device = .ideal → v = memoryRead s.mem a.toNat)) ∨
    (∃ a v, (perform m s).history = s.history ++ [.strobe a v] ∧ (perform m s).device = s.device ∧
      (s.device = .ideal → (perform m s).mem = memoryWrite s.mem a.toNat v)) ∨
    (∃ c, inDomain c = false ∧ (perform m s).history = s.history ++ [c] ∧
      (perform m s).device = (leaveDomain s).device ∧ (perform m s).mem = s.mem) := by
  have key {after : State} (hh : after.history = s.history) (hd : after.device = s.device) (hm : after.mem = s.mem) :
      (((strobeIfNew s after).history = s.history ∧ (strobeIfNew s after).device = s.device ∧
        (strobeIfNew s after).mem = s.mem) ∨
      (∃ a v, (strobeIfNew s after).history = s.history ++ [.strobe a v] ∧
        (strobeIfNew s after).device = s.device ∧
        (s.device = .ideal → (strobeIfNew s after).mem = memoryWrite s.mem a.toNat v)) ∨
      (∃ c, inDomain c = false ∧ (strobeIfNew s after).history = s.history ++ [c] ∧
        (strobeIfNew s after).device = (leaveDomain s).device ∧ (strobeIfNew s after).mem = s.mem)) := by
    have h := strobeIfNew_cycle (before := s) (after := after)
    rwa [hh, hd, hm, show (leaveDomain after).device = (leaveDomain s).device by simp [leaveDomain_device, hd]] at h
  cases m with
  | set l v =>
    rcases key (after := setLine l v s) (by cases l <;> rfl) (by cases l <;> rfl) (by cases l <;> rfl) with h | h | h
    · exact .inl h
    · exact .inr (.inr (.inl h))
    · exact .inr (.inr (.inr h))
  | set3 v =>
    rcases key (after := setThree v s) rfl rfl rfl with h | h | h
    · exact .inl h
    · exact .inr (.inr (.inl h))
    · exact .inr (.inr (.inr h))
  | sample =>
    rcases sampleDomain_cases s with ⟨hw, hd⟩ | ⟨hw, hd⟩
    · refine .inr (.inl ⟨s.pr, sampledByte s, ?_⟩)
      simp [perform, takeSample, nextDraw, recordCycle, sampleCycle, hw, hd, sampledByte, chipByte]
      intro hi
      simp [hi]
    · refine .inr (.inr (.inr ⟨.illFormedRead (sampledByte s), rfl, ?_⟩))
      simp [perform, takeSample, nextDraw, recordCycle, sampleCycle, hw, hd]
  | _ => exact .inl ⟨rfl, rfl, rfl⟩

end Sys2Proof.Machine
end

