-- ==== Sys2Proof/Laws/PerInstr.lean ====
section
/-! SUPPORT. The per-instruction family WordZero: word 0 of every command carries its operation code in bits 31:24 and the
command has the length its format gives (30_encoding.md R71, R74). -/

namespace Sys2Proof.Laws.WordZero

/-- Word 0 has the operation code in bits 31:24, the code is one of the 18 of R75, and the encoding has the command's
length. -/
def Statement (i : Instr) : Prop :=
  (∃ w ws, encode i = w :: ws ∧ opField w = opcodeOf i) ∧ opcodeOf i ∈ opcodes ∧
    (encode i).length = commandLength i

theorem clear : Statement .clear := ⟨⟨_, _, rfl, opField_packWord _ _⟩, by decide, rfl⟩
theorem shift : Statement .shift := ⟨⟨_, _, rfl, opField_packWord _ _⟩, by decide, rfl⟩
theorem latch : Statement .latch := ⟨⟨_, _, rfl, opField_packWord _ _⟩, by decide, rfl⟩
theorem on : Statement .on := ⟨⟨_, _, rfl, opField_packWord _ _⟩, by decide, rfl⟩
theorem off : Statement .off := ⟨⟨_, _, rfl, opField_packWord _ _⟩, by decide, rfl⟩
theorem sendBit (bit : Bool) : Statement (.sendBit bit) :=
  ⟨⟨_, _, rfl, opField_packWord _ _⟩, by simp [opcodeOf, opcodes], rfl⟩
theorem sendByte (value : Byte) : Statement (.sendByte value) :=
  ⟨⟨_, _, rfl, opField_packWord _ _⟩, by simp [opcodeOf, opcodes], rfl⟩
theorem set1 : Statement .set1 := ⟨⟨_, _, rfl, opField_packWord _ _⟩, by decide, rfl⟩
theorem set0 : Statement .set0 := ⟨⟨_, _, rfl, opField_packWord _ _⟩, by decide, rfl⟩
theorem ioOutput : Statement .ioOutput := ⟨⟨_, _, rfl, opField_packWord _ _⟩, by decide, rfl⟩
theorem ioInput : Statement .ioInput := ⟨⟨_, _, rfl, opField_packWord _ _⟩, by decide, rfl⟩
theorem setAddress (addr : Addr) : Statement (.setAddress addr) :=
  ⟨⟨_, _, rfl, opField_packWord _ _⟩, by simp [opcodeOf, opcodes], rfl⟩
theorem readByte (addr : Addr) : Statement (.readByte addr) :=
  ⟨⟨_, _, rfl, opField_packWord _ _⟩, by simp [opcodeOf, opcodes], rfl⟩
theorem readPage (page pageSize : BitVec 24) : Statement (.readPage page pageSize) :=
  ⟨⟨_, _, rfl, opField_packWord _ _⟩, by simp [opcodeOf, opcodes], rfl⟩
theorem writeBytes (addresses : List Addr) (data : List Byte) : Statement (.writeBytes addresses data) :=
  ⟨⟨_, _, rfl, opField_packWord _ _⟩, by simp [opcodeOf, opcodes], by simp [encode, commandLength]; omega⟩
theorem enableProtection : Statement .enableProtection :=
  ⟨⟨_, _, rfl, opField_packWord _ _⟩, by decide, rfl⟩
theorem disableProtection : Statement .disableProtection :=
  ⟨⟨_, _, rfl, opField_packWord _ _⟩, by decide, rfl⟩
theorem eraseChip : Statement .eraseChip := ⟨⟨_, _, rfl, opField_packWord _ _⟩, by decide, rfl⟩

end Sys2Proof.Laws.WordZero
end

