-- ==== Sys2Proof/Machine/Assembler.lean ====
section
/-! DEFINITION. The textual form of commands (30_encoding.md R80, R81): one command per line, the mnemonic, operands
separated by commas, decimal or 0x numbers, lists in square brackets, a number sign to the end of the line a comment. The
block reads no text; what the rule leaves open of the form is log 25. -/

namespace Sys2Proof.Machine

/-! ## Tokens -/

/-- The pieces of a line. -/
inductive Token where
  /-- letters, digits and underscores in a row -/
  | word (cs : List Char)
  | comma
  | openList
  | closeList
  deriving DecidableEq, Repr

/-- The word collected so far, its last character first, as tokens. -/
def wordToken : List Char → List Token
  | [] => []
  | cs => [.word cs.reverse]

/-- The tokens of a line; `acc` is the word being read, last character first. Nothing where a character has no place in
the form. -/
def tokens (acc : List Char) : List Char → Option (List Token)
  | [] => some (wordToken acc)
  | '#' :: _ => some (wordToken acc)
  | ',' :: cs => (tokens [] cs).map (fun ts => wordToken acc ++ .comma :: ts)
  | '[' :: cs => (tokens [] cs).map (fun ts => wordToken acc ++ .openList :: ts)
  | ']' :: cs => (tokens [] cs).map (fun ts => wordToken acc ++ .closeList :: ts)
  | c :: cs =>
    if c = ' ' ∨ c = '\t' ∨ c = '\r' then (tokens [] cs).map (fun ts => wordToken acc ++ ts)
    else if c.isAlphanum ∨ c = '_' then tokens (c :: acc) cs
    else none

/-! ## Numbers (00_scope.md R6) -/

/-- The value of a digit in a base. -/
def digitValue (base : Nat) (c : Char) : Option Nat :=
  let v :=
    if '0' ≤ c ∧ c ≤ '9' then c.toNat - 48
    else if 'a' ≤ c ∧ c ≤ 'f' then c.toNat - 87
    else if 'A' ≤ c ∧ c ≤ 'F' then c.toNat - 55
    else base
  if v < base then some v else none

/-- The value of a run of digits after digits of value `acc`. -/
def digitsValue (base acc : Nat) : List Char → Option Nat
  | [] => some acc
  | c :: cs =>
    match digitValue base c with
    | some v => digitsValue base (acc * base + v) cs
    | none => none

/-- A number: `0x` and hexadecimal digits, or decimal digits. -/
def numberValue : List Char → Option Nat
  | [] => none
  | ['0', 'x'] => none
  | '0' :: 'x' :: cs => digitsValue 16 0 cs
  | cs => digitsValue 10 0 cs

/-! ## Operands -/

/-- An operand of a line. -/
inductive Operand where
  | number (n : Nat)
  | list (ns : List Nat)
  deriving DecidableEq, Repr

/-- Where the reading of a line's operands stands. -/
inductive Reading where
  /-- an operand must come -/
  | operand
  /-- a comma or the end of the line must come -/
  | separator
  /-- inside a list, a number must come; the numbers before it, last first -/
  | item (ns : List Nat)
  /-- inside a list, a comma or the end of the list must come -/
  | itemSeparator (ns : List Nat)

/-- The operands of a line. -/
def operands : Reading → List Token → Option (List Operand)
  | .separator, [] => some []
  | .separator, .comma :: ts => operands .operand ts
  | .operand, .word cs :: ts =>
    match numberValue cs with
    | some n => (operands .separator ts).map (fun os => .number n :: os)
    | none => none
  | .operand, .openList :: .closeList :: ts => (operands .separator ts).map (fun os => .list [] :: os)
  | .operand, .openList :: ts => operands (.item []) ts
  | .item ns, .word cs :: ts =>
    match numberValue cs with
    | some n => operands (.itemSeparator (n :: ns)) ts
    | none => none
  | .itemSeparator ns, .comma :: ts => operands (.item ns) ts
  | .itemSeparator ns, .closeList :: ts => (operands .separator ts).map (fun os => .list ns.reverse :: os)
  | _, _ => none

/-- All operands of a line: none, or some with commas between them. -/
def lineOperands : List Token → Option (List Operand)
  | [] => some []
  | ts => operands .operand ts

/-! ## Lines -/

/-- An unsigned operand of `w` bits; nothing where the number does not fit (R73). -/
def sized (w n : Nat) : Option (BitVec w) :=
  if n < 2 ^ w then some (BitVec.ofNat w n) else none

/-- A list of unsigned operands of `w` bits. -/
def sizedList (w : Nat) : List Nat → Option (List (BitVec w))
  | [] => some []
  | n :: ns =>
    match sized w n, sizedList w ns with
    | some v, some vs => some (v :: vs)
    | _, _ => none

/-- The commands without operands, each with its spellings (R75, R81). -/
def plainCommands : List (String × Instr) :=
  [("clear", .clear), ("shift", .shift), ("latch", .latch), ("on", .on), ("off", .off), ("set_1", .set1),
    ("set_0", .set0), ("io_output", .ioOutput), ("io_input", .ioInput), ("enable_protection", .enableProtection),
    ("enable_protection_AT29C010A", .enableProtection), ("disable_protection", .disableProtection),
    ("disable_protection_AT29C010A", .disableProtection), ("erase_chip", .eraseChip),
    ("erase_chip_AT29C010A", .eraseChip)]

/-- The command a spelling without operands stands for. -/
def plainCommand (name : String) : List (String × Instr) → Option Instr
  | [] => none
  | (spelling, i) :: rest => if name = spelling then some i else plainCommand name rest

/-- The command of a mnemonic and operands (R75, R79). R80 does not say whether a line whose term R79 calls ill-formed is
a command. DESIGN CHOICE, log 25: a `read_page` out of range is one, since its operands fit their fields; its words are what
decode refuses with ADDRESS_RANGE (R77). A `write_bytes` with a list of 2^24 or more elements is none, since the length does
not fit `na` or `nd` (R73). -/
def lineCommand (name : String) : List Operand → Option Instr
  | [] => plainCommand name plainCommands
  | [.number n] =>
    if name = "send_bit" then (sized 1 n).map (fun v => .sendBit (v.getLsbD 0))
    else if name = "send_byte" then (sized 8 n).map .sendByte
    else if name = "set_address" then (sized 24 n).map .setAddress
    else if name = "read_byte" then (sized 24 n).map .readByte
    else none
  | [.number p, .number n] =>
    if name = "read_page" then
      match sized 24 p, sized 24 n with
      | some page, some pageSize => some (.readPage page pageSize)
      | _, _ => none
    else none
  | [.list as, .list ds] =>
    if name = "write_bytes" then
      match sizedList 24 as, sizedList 8 ds with
      | some addresses, some data =>
        if lengthFits addresses ∧ lengthFits data then some (.writeBytes addresses data) else none
      | _, _ => none
    else none
  | _ => none

/-- What a line of text holds. -/
inductive TextLine where
  /-- nothing but blanks and a comment -/
  | blank
  /-- one command -/
  | command (i : Instr)
  /-- text that is not of the form -/
  | bad
  deriving DecidableEq, Repr

/-- Read one line (R80). -/
def readLine (line : String) : TextLine :=
  match tokens [] line.toList with
  | some [] => .blank
  | some (.word cs :: ts) =>
    match lineOperands ts with
    | some os =>
      match lineCommand (String.ofList cs) os with
      | some i => .command i
      | none => .bad
    | none => .bad
  | _ => .bad

/-- The command words of a text, line by line (R80, R79); nothing where a line is not of the form. The words of a
`read_page` out of range stand in them and are refused by decode when fetched (DESIGN CHOICE, log 25). -/
def assemble : List String → Option (List Word)
  | [] => some []
  | line :: rest =>
    match readLine line, assemble rest with
    | .blank, words => words
    | .command i, some words => some (encode i ++ words)
    | .command _, none => none
    | .bad, _ => none

end Sys2Proof.Machine
end

