-- ==== Sys2Proof/Tests/Slice0.lean ====
section
/-! SUPPORT. Tests on fixed values, taken from spec/95_test_vectors.md (V.., S.., P..) and from the rules named, and for every
obligation with hypotheses a witness that meets them together. -/

set_option maxRecDepth 20000

namespace Sys2Proof.Tests

open Sys2Proof.Machine Sys2Proof.Safety

/-! ## Well-formedness: an ill-formed term for each check, refused -/

/-- R138: the last address of `read_page 0x010000, 0x000100` is 0x10000FF. -/
theorem test_wellFormed_page_out_of_range : ¬ (Instr.readPage 0x010000#24 0x000100#24).WellFormed := by decide

/-- The range table of 95_test_vectors.md: no wrap-around of the product. -/
theorem test_wellFormed_page_no_wrap : ¬ (Instr.readPage 0xFFFFFF#24 0xFFFFFF#24).WellFormed := by decide

/-- R72: `na` is a field of 24 bits. -/
theorem test_wellFormed_too_many_addresses : ¬ (Instr.writeBytes (List.replicate (2 ^ 24) 0#24) []).WellFormed := by
  intro h
  exact absurd h.1 (by unfold lengthFits; rw [List.length_replicate]; omega)

/-- R72: `nd` is a field of 24 bits. -/
theorem test_wellFormed_too_many_bytes : ¬ (Instr.writeBytes [] (List.replicate (2 ^ 24) 0#8)).WellFormed := by
  intro h
  exact absurd h.2 (by unfold lengthFits; rw [List.length_replicate]; omega)

theorem test_wellFormed_last_page : (Instr.readPage 0x00FFFF#24 0x000100#24).WellFormed ∧
    (Instr.readPage 0xFFFFFF#24 0x000001#24).WellFormed ∧ (Instr.readPage 0x000005#24 0x000000#24).WellFormed := by
  decide

/-! ## Decode: a word for every constructor, written out from the formats of R72 and the map of R75 -/

theorem test_decode_clear : decode [0b00000001_000000000000000000000000#32] = .ok .clear 1 := by decide
theorem test_decode_shift : decode [0b00000010_000000000000000000000000#32] = .ok .shift 1 := by decide
theorem test_decode_latch : decode [0b00000011_000000000000000000000000#32] = .ok .latch 1 := by decide
theorem test_decode_on : decode [0b00000100_000000000000000000000000#32] = .ok .on 1 := by decide
theorem test_decode_off : decode [0b00000101_000000000000000000000000#32] = .ok .off 1 := by decide
theorem test_decode_sendBit : decode [0b00000110_00000000000000000000000_1#32] = .ok (.sendBit true) 1 := by decide
theorem test_decode_sendByte : decode [0b00000111_0000000000000000_00010010#32] = .ok (.sendByte 0x12#8) 1 := by decide
theorem test_decode_set1 : decode [0b00010000_000000000000000000000000#32] = .ok .set1 1 := by decide
theorem test_decode_set0 : decode [0b00010001_000000000000000000000000#32] = .ok .set0 1 := by decide
theorem test_decode_ioOutput : decode [0b00010010_000000000000000000000000#32] = .ok .ioOutput 1 := by decide
theorem test_decode_ioInput : decode [0b00010011_000000000000000000000000#32] = .ok .ioInput 1 := by decide
/-- V46 -/
theorem test_decode_setAddress : decode [0b00010100_101010111100110111101111#32] = .ok (.setAddress 0xABCDEF#24) 1 := by
  decide
/-- V51 -/
theorem test_decode_readByte : decode [0b00010101_111111111111111111111111#32] = .ok (.readByte 0xFFFFFF#24) 1 := by
  decide
/-- S3 -/
theorem test_decode_readPage : decode [0b00010110_000000000000000000000010#32, 0b00000000_000000000000000000010000#32] =
    .ok (.readPage 2#24 16#24) 2 := by decide
/-- V62: two addresses, one byte. -/
theorem test_decode_writeBytes :
    decode [0x17000002#32, 0x00000001#32, 0x00000010#32, 0x00000011#32, 0x000000AB#32, 0x01000000#32] =
      .ok (.writeBytes [0x10#24, 0x11#24] [0xAB#8]) 5 := by decide
theorem test_decode_enableProtection : decode [0b00011000_000000000000000000000000#32] = .ok .enableProtection 1 := by
  decide
theorem test_decode_disableProtection : decode [0b00011001_000000000000000000000000#32] = .ok .disableProtection 1 := by
  decide
theorem test_decode_eraseChip : decode [0b00011010_000000000000000000000000#32] = .ok .eraseChip 1 := by decide

/-- V80-V83 -/
theorem test_decode_illegal_opcode :
    decode [0x00000000#32] = .error .illegalOpcode 0x00#8 ∧ decode [0xFF000000#32] = .error .illegalOpcode 0xFF#8 ∧
    decode [0x08000000#32] = .error .illegalOpcode 0x08#8 ∧ decode [0x1B000000#32] = .error .illegalOpcode 0x1B#8 := by
  decide

/-- V84-V89 -/
theorem test_decode_reserved :
    decode [0x01000001#32] = .error .reservedNonzero 0x01#8 ∧ decode [0x06000002#32] = .error .reservedNonzero 0x06#8 ∧
    decode [0x07000100#32] = .error .reservedNonzero 0x07#8 ∧ decode [0x18000001#32] = .error .reservedNonzero 0x18#8 ∧
    decode [0x16000000#32, 0x01000000#32] = .error .reservedNonzero 0x16#8 ∧
    decode [0x17000000#32, 0x01000000#32] = .error .reservedNonzero 0x17#8 := by decide

/-- V90-V93 -/
theorem test_decode_reserved_lists :
    decode [0x17000001#32, 0x00000001#32, 0x01000010#32, 0x000000FF#32] = .error .reservedNonzero 0x17#8 ∧
    decode [0x17000001#32, 0x00000001#32, 0x00000010#32, 0x000001FF#32] = .error .reservedNonzero 0x17#8 ∧
    decode [0x17000002#32, 0x00000001#32, 0x00000010#32, 0x01000011#32, 0x000000FF#32] =
      .error .reservedNonzero 0x17#8 ∧
    decode [0x17000001#32, 0x00000000#32, 0x01000000#32] = .error .reservedNonzero 0x17#8 := by decide

/-- V94 and the range table -/
theorem test_decode_address_range :
    decode [0x16010000#32, 0x00000100#32] = .error .addressRange 0x16#8 ∧
    decode [0x16000001#32, 0x00800001#32] = .error .addressRange 0x16#8 ∧
    decode [0x16000001#32, 0x00800000#32] = .ok (.readPage 1#24 0x800000#24) 2 := by decide

/-- V95-V97 -/
theorem test_decode_need_more :
    decode [0x17000001#32, 0x00000001#32, 0x00000010#32] = .needMore ∧ decode [0x1600FFFF#32] = .needMore ∧
    decode [] = .needMore := by decide

/-- R71, R72: the words of V62 again, from the command. -/
theorem test_encode_writeBytes : encode (.writeBytes [0x10#24, 0x11#24] [0xAB#8]) =
    [0x17000002#32, 0x00000001#32, 0x00000010#32, 0x00000011#32, 0x000000AB#32] := by decide

/-- The numbering of spec/opcode_table.json: word 1 is bits 63:32. -/
theorem test_decodeTableWord : decodeTableWord 64 0x00000010_16000002 = some (.readPage 2#24 16#24) ∧
    decodeTableWord 32 0x07000012 = some (.sendByte 0x12#8) ∧ decodeTableWord 32 0x00000000 = none := by decide

/-! ## Text (R80, R81) -/

/-- The examples of R80. -/
theorem test_readLine_examples :
    readLine "send_byte 0x12" = .command (.sendByte 0x12#8) ∧ readLine "read_page 2, 16" = .command (.readPage 2#24 16#24) ∧
    readLine "write_bytes [0x000010], [0xFF]" = .command (.writeBytes [0x10#24] [0xFF#8]) ∧
    readLine "# nothing" = .blank ∧ readLine "send_bit 2" = .bad := by decide

/-- A page out of range is a command line, and decode refuses its words; a list too long for `na` is no command (log 25). -/
theorem test_ill_formed_lines :
    readLine "read_page 0x010000, 0x000100" = .command (.readPage 0x010000#24 0x000100#24) ∧
    decode (encode (.readPage 0x010000#24 0x000100#24)) = .error .addressRange 0x16#8 ∧
    (∀ (ns : List Nat) (as : List Addr), sizedList 24 ns = some as → as.length = 2 ^ 24 →
      lineCommand "write_bytes" [.list ns, .list []] = none) := by
  refine ⟨by decide, by decide, fun ns as hs hl => ?_⟩
  simp [lineCommand, hs, hl, sizedList, lengthFits]

/-- Program P1 and its words; the second spellings of R81. -/
theorem test_assemble_P1 :
    assemble ["write_bytes [0x000010], [0xFF]", "read_byte 0x000010"] =
      some [0x17000001#32, 0x00000001#32, 0x00000010#32, 0x000000FF#32, 0x15000010#32] ∧
    readLine "erase_chip_AT29C010A" = .command .eraseChip := by decide

/-! ## Steps -/

/-- The reset state R(sc, pr, dout, din) of 95_test_vectors.md with words in CQ. -/
def loaded (sc pr : Addr) (words : List Word) : State :=
  { State.resetWith sc pr 0x5A#8 0xC3#8 with cq := words }

/-- The same with the ideal device and cells of MEM. -/
def ideal (mem : Memory) (words : List Word) : State :=
  { loaded 0xABCDEF#24 0x654321#24 words with device := .ideal, mem := mem }

/-- The state after one step. -/
def after (s : State) : Option State :=
  match step s with
  | .next t => some t
  | .fault _ => none
  | .refused _ => none

/-- V01 -/
theorem test_clear : (after (loaded 0xDEAD01#24 0xBEEF02#24 [0x01000000#32])).map
      (fun t => (t.sc, t.pr, t.clrN, t.trace)) =
    some (0#24, 0xBEEF02#24, true, [.set .clrN false, .set .clrN true, .resp 0x80000001#32]) := by decide

/-- V03: the old SC[23] is lost, SER enters stage 0. -/
theorem test_shift_one : (after { loaded 0x800001#24 0#24 [0x02000000#32] with ser := true }).map
      (fun t => (t.sc, t.srclk, t.trace)) =
    some (0x000003#24, false, [.set .srclk true, .set .srclk false, .resp 0x80000002#32]) := by decide

/-- V04 -/
theorem test_shift_zero : (after (loaded 0x800001#24 0#24 [0x02000000#32])).map State.sc = some 0x000002#24 := by decide

/-- V05 -/
theorem test_latch : (after (loaded 0x00ABCD#24 0xFFFFFF#24 [0x03000000#32])).map (fun t => (t.pr, t.sc, t.rclk)) =
    some (0x00ABCD#24, 0x00ABCD#24, false) := by decide

/-- V09, second step: the address bus carries PR again. -/
theorem test_on : (after { loaded 1#24 2#24 [0x04000000#32] with srOeN := true }).map
      (fun t => (t.srOeN, addressBus t)) = some (false, some 2#24) := by decide

/-- V07 -/
theorem test_off : (after (loaded 1#24 2#24 [0x05000000#32])).map
      (fun t => (t.srOeN, addressBus t, t.sc, t.pr, t.rq)) = some (true, none, 1#24, 2#24, [0x80000005#32]) := by decide

/-- V10 -/
theorem test_sendBit_one : (after (loaded 0#24 0#24 [0x06000001#32])).map (fun t => (t.sc, t.ser)) =
    some (0x000001#24, true) := by decide

/-- V12: a one falls off stage 23. -/
theorem test_sendBit_zero : (after (loaded 0xFFFFFF#24 0#24 [0x06000000#32])).map (fun t => (t.sc, t.ser)) =
    some (0xFFFFFE#24, false) := by decide

/-- V24 -/
theorem test_sendByte : (after (loaded 0#24 0#24 [0x07000012#32])).map
      (fun t => (t.sc, t.pr, t.ser, t.trace.length)) = some (0x000048#24, 0x000048#24, false, 27) := by decide

/-- V20 -/
theorem test_sendByte_keeps_the_deep_stages : (after (loaded 0xFFFFFF#24 0xABCDEF#24 [0x07000001#32])).map
      (fun t => (t.sc, t.pr, t.ser)) = some (0xFFFF80#24, 0xFFFF80#24, false) := by decide

/-- V32, second step -/
theorem test_set1 : (after { loaded 0#24 0#24 [0x10000000#32] with ceN := false, oeN := false, weN := false }).map
      (fun t => (t.ceN, t.oeN, t.weN, t.trace)) = some (true, true, true, [.set3 true, .resp 0x80000010#32]) := by decide

/-- V31: one ill-formed strobe, outside the ideal device's domain. -/
theorem test_set0 : (after (ideal [] [0x11000000#32])).map
      (fun t => (t.ceN, t.oeN, t.weN, t.history.length, t.device)) = some (false, false, false, 1, .outside) := by decide

/-- V33 -/
theorem test_ioOutput : (after (loaded 0#24 0#24 [0x12000000#32])).map (fun t => (t.dir, dataDriven t)) =
    some (.output, some 0x5A#8) := by decide

/-- V34, second step -/
theorem test_ioInput : (after { loaded 0#24 0#24 [0x13000000#32] with dir := .output }).map
      (fun t => (t.dir, dataDriven t, t.dout)) = some (.input, none, 0x5A#8) := by decide

/-- V46 -/
theorem test_setAddress : (after (loaded 0#24 0#24 [0x14ABCDEF#32])).map
      (fun t => (t.sc, t.pr, t.ser, t.trace.length)) = some (0xABCDEF#24, 0xABCDEF#24, true, 77) := by decide

/-- V47 -/
theorem test_setAddress_even : (after (loaded 0xFFFFFF#24 0#24 [0x14123456#32])).map (fun t => (t.pr, t.ser)) =
    some (0x123456#24, false) := by decide

/-- V50 -/
theorem test_readByte : (after (ideal [(0x10, 0xFF#8)] [0x15000010#32])).map
      (fun t => (t.pr, t.din, t.dir, t.rq, t.trace.length)) =
    some (0x10#24, 0xFF#8, .input, [0x810000FF#32, 0x80000015#32], 84) := by decide

/-- V51: the top address, and the wait directly before the sample (S7). -/
theorem test_readByte_top : (after (ideal [(0xFFFFFF, 0x3C#8)] [0x15FFFFFF#32])).map
      (fun t => (t.din, (t.trace.drop 79).take 3, t.history)) =
    some (0x3C#8, [.wait 150, .sample 0x3C#8, .set3 true], [.read 0xFFFFFF#24 0x3C#8]) := by decide

/-- V53, with the cells it needs -/
theorem test_readPage : (after (ideal [(0, 0x01#8), (1, 0x04#8), (2, 0x07#8)] [0x16000000#32, 0x00000003#32])).map
      (fun t => (t.pr, t.din, t.rq, t.trace.length)) =
    some (2#24, 0x07#8, [0x81000001#32, 0x81000004#32, 0x81000007#32, 0x80000016#32], 250) := by decide

/-- V54: an empty page. -/
theorem test_readPage_empty : (after (loaded 7#24 9#24 [0x16000005#32, 0x00000000#32])).map
      (fun t => (t.sc, t.pr, t.din, t.rq, t.trace)) =
    some (7#24, 9#24, 0xC3#8, [0x80000016#32], [.resp 0x80000016#32]) := by decide

/-- V64: the same address twice, both written in order. -/
theorem test_writeBytes_twice : (after (ideal []
      [0x17000002#32, 0x00000002#32, 0x00000020#32, 0x00000020#32, 0x00000011#32, 0x00000022#32])).map
      (fun t => (t.history, t.mem, t.dout, t.dir, t.trace.length)) =
    some ([.strobe 0x20#24 0x11#8, .strobe 0x20#24 0x22#8], [(0x20, 0x22#8)], 0x22#8, .output, 173) := by decide

/-- V61: no pairs. -/
theorem test_writeBytes_empty : (after (loaded 7#24 9#24 [0x17000000#32, 0x00000000#32])).map
      (fun t => (t.sc, t.pr, t.dout, t.trace)) =
    some (7#24, 9#24, 0x5A#8, [.dir .output, .set .oeN false, .wait 50000000, .set .oeN true, .set3 true, .wait 150,
      .resp 0x80000017#32]) := by decide

/-- V70: the strobes. -/
theorem test_enableProtection : (after (ideal [] [0x18000000#32])).map State.history =
    some [.strobe 0x005555#24 0xAA#8, .strobe 0x002AAA#24 0x55#8, .strobe 0x005555#24 0xA0#8] := by decide

/-- V70: the end state. -/
theorem test_enableProtection_end : (after (ideal [] [0x18000000#32])).map
      (fun t => (t.dout, t.pr, t.ser, memoryRead t.mem 0x2AAA, t.rq)) =
    some (0xA0#8, 0x005555#24, true, 0x55#8, [0x80000018#32]) := by decide

/-- V71: the strobes. -/
theorem test_disableProtection : (after (ideal [] [0x19000000#32])).map State.history =
    some [.strobe 0x005555#24 0xAA#8, .strobe 0x002AAA#24 0x55#8, .strobe 0x005555#24 0x80#8,
      .strobe 0x005555#24 0xAA#8, .strobe 0x002AAA#24 0x55#8, .strobe 0x005555#24 0x20#8] := by decide

/-- V72: the strobes. -/
theorem test_eraseChip : (after (ideal [] [0x1A000000#32])).map State.history =
    some [.strobe 0x005555#24 0xAA#8, .strobe 0x002AAA#24 0x55#8, .strobe 0x005555#24 0x80#8,
      .strobe 0x005555#24 0xAA#8, .strobe 0x002AAA#24 0x55#8, .strobe 0x005555#24 0x10#8] := by decide

/-- V94: one ERR word, HALTED, CQ keeps the words, no line moves. -/
theorem test_error : (after (loaded 7#24 9#24 [0x16010000#32, 0x00000100#32])).map
      (fun t => (t.rq, t.halted, t.cq, t.sc, t.trace)) =
    some ([0xEE000316#32], true, [0x16010000#32, 0x00000100#32], 7#24, [.resp 0xEE000316#32]) := by decide

/-- R36, R185: a halted controller is stuck. -/
theorem test_halted : step { loaded 0#24 0#24 [0x01000000#32] with halted := true } = .fault .halted := by rfl

/-- R210: the reset inside a command. -/
theorem test_reset_inside_a_command : (after { loaded 0#24 0#24 [0x01000000#32] with
        turns := [.reset], run := [.set .srclk false], srclk := true, srOeN := true }).map
      (fun t => (t.run, t.cq, t.srclk, t.srOeN)) = some ([], [], false, false) := by decide

/-- The sampled lines of R66: V35 ends in contention. -/
theorem test_contention : (after { loaded 0#24 0#24 [0x11000000#32] with dir := .output }).map contention =
    some true := by decide

/-- The table of `rev8` (95_test_vectors.md 2.1). -/
theorem test_rev8 : [0x00#8, 0x01#8, 0x80#8, 0x0F#8, 0x12#8, 0x34#8, 0x56#8, 0xA5#8, 0xFF#8].map rev8 =
    [0x00#8, 0x80#8, 0x01#8, 0xF0#8, 0x48#8, 0x2C#8, 0x6A#8, 0xA5#8, 0xFF#8] := by decide

/-! ## Witnesses: for every obligation with hypotheses, a state and operands that meet them, one for each clause -/

/-- A state with low clock lines and the outputs on, the data lines driven and the chip deselected. -/
def idle : State := { loaded 0xABCDEF#24 0x654321#24 [] with dir := .output }

/-- The same with the ideal device. -/
def idealIdle : State := { idle with device := .ideal, mem := [(0x10, 0x01#8)] }

/-- A state inside a `latch`, after its first micro-operation. -/
def latching : State := { idle with rclk := true, run := [.set .rclk false, .resp 0x80000003#32] }

/-- A command boundary with a controller turn pending. -/
def scheduled (ws : List Word) : State := { loaded 0xABCDEF#24 0x654321#24 ws with turns := [.controller, .pop] }

theorem witness_ResetStateHasTheSpecValues : State.resetWith 1#24 2#24 3#8 4#8 = State.resetWith 1#24 2#24 3#8 4#8 := rfl

/-- At a command boundary, and inside a command. -/
theorem witness_ExternalResetGivesTheResetState :
    { idle with turns := [.reset] }.turns = Turn.reset :: [] ∧
    { latching with turns := [.reset, .pop] }.turns = Turn.reset :: [.pop] := by decide

theorem witness_StepRunsTheDecodedCommand : Ready (loaded 1#24 2#24 [0x17000000#32, 0x00000000#32, 0x01000000#32]) ∧
    decode (loaded 1#24 2#24 [0x17000000#32, 0x00000000#32, 0x01000000#32]).cq = .ok (.writeBytes [] []) 2 := by decide

/-- With nothing pending; and with a controller turn: EXEC, FETCH, ERROR, a word missing, HALTED. -/
theorem witness_ControllerTurnTakesOneStepOfTheTable :
    (latching.turns = [] ∧ latching.run = .set .rclk false :: [.resp 0x80000003#32]) ∧
    ({ latching with turns := [.controller] }.turns = .controller :: [] ∧
      { latching with turns := [.controller] }.run = .set .rclk false :: [.resp 0x80000003#32]) ∧
    ((scheduled [0x16000002#32, 0x00000010#32]).turns = .controller :: [.pop] ∧
      (scheduled [0x16000002#32, 0x00000010#32]).run = [] ∧
      (scheduled [0x16000002#32, 0x00000010#32]).halted = false ∧
      decode (scheduled [0x16000002#32, 0x00000010#32]).cq = .ok (.readPage 2#24 16#24) 2) ∧
    ((scheduled [0x00000000#32]).turns = .controller :: [.pop] ∧
      decode (scheduled [0x00000000#32]).cq = .error .illegalOpcode 0x00#8) ∧
    ((scheduled [0x16000002#32]).turns = .controller :: [.pop] ∧ decode (scheduled [0x16000002#32]).cq = .needMore) ∧
    ({ scheduled [] with halted := true }.turns = .controller :: [.pop] ∧
      { scheduled [] with halted := true }.run = [] ∧ { scheduled [] with halted := true }.halted = true) := by decide

/-- R38: a FETCH turn alone: the words leave CQ, the list and the DONE response stand in RUN, no line moves. -/
theorem test_fetch_turn : (after (scheduled [0x03000000#32, 0x01000000#32])).map
      (fun t => (t.cq, t.run, t.turns, t.rclk, t.trace)) =
    some ([0x01000000#32], [.set .rclk true, .set .rclk false, .resp 0x80000003#32], [.pop], false, []) := by decide

/-- V80, V84, V94: each of the three errors. -/
theorem witness_ErrorEntryPushesErrAndHalts :
    (Ready (loaded 0#24 0#24 [0x00000000#32]) ∧ decode [0x00000000#32] = .error .illegalOpcode 0x00#8) ∧
    (Ready (loaded 0#24 0#24 [0x01000001#32]) ∧ decode [0x01000001#32] = .error .reservedNonzero 0x01#8) ∧
    (Ready (loaded 0#24 0#24 [0x16010000#32, 0x00000100#32]) ∧
      decode [0x16010000#32, 0x00000100#32] = .error .addressRange 0x16#8) := by decide

/-- A step that sets HALTED, a reset that clears it, a halted controller. -/
theorem witness_HaltedIsStickyAndSetByErrorsOnly :
    (∃ t, step (loaded 0#24 0#24 [0x00000000#32]) = .next t ∧ (loaded 0#24 0#24 [0x00000000#32]).halted = false ∧
      t.halted = true) ∧
    (∃ t, step { idle with halted := true, turns := [.reset] } = .next t ∧
      { idle with halted := true, turns := [.reset] }.halted = true ∧ t.halted = false) ∧
    (ClockInvariant { idle with halted := true } ∧ { idle with halted := true }.halted = true) :=
  ⟨⟨_, rfl, rfl, rfl⟩, ⟨_, rfl, rfl, rfl⟩, by decide, rfl⟩

/-- V97 and V95. -/
theorem witness_StepWaitsForMissingWords :
    (Ready (loaded 0#24 0#24 []) ∧ decode (loaded 0#24 0#24 []).cq = .needMore) ∧
    (Ready (loaded 0#24 0#24 [0x17000001#32, 0x00000001#32, 0x00000010#32]) ∧
      decode (loaded 0#24 0#24 [0x17000001#32, 0x00000001#32, 0x00000010#32]).cq = .needMore) := by decide

theorem witness_HostTurnsPushAndPop :
    { idle with turns := [.push 7#32] }.turns = .push 7#32 :: [] ∧
    ({ idle with turns := [.pop], rq := [7#32] }.turns = .pop :: [] ∧
      { idle with turns := [.pop], rq := [7#32] }.rq = 7#32 :: []) ∧
    ({ idle with turns := [.pop] }.turns = .pop :: [] ∧ { idle with turns := [.pop] }.rq = []) := by decide

theorem witness_CommandStepIsItsMicroSteps : Ready (loaded 1#24 2#24 [0x16000005#32, 0x00000000#32]) ∧
    decode (loaded 1#24 2#24 [0x16000005#32, 0x00000000#32]).cq = .ok (.readPage 5#24 0#24) 2 := by decide

/-- Inside a command, with a response to pop, and with a verdict reached. -/
theorem witness_HostStepsDoNotDisturbCommands :
    latching.run ≠ [] ∧ ({ latching with rq := [7#32] }.run ≠ [] ∧ { latching with rq := [7#32] }.rq ≠ []) ∧
    { idle with rq := [7#32] }.rq ≠ [] ∧ decode (loaded 0#24 0#24 [0x01000000#32]).cq ≠ .needMore := by decide

/-- The last page that ends at 2^24 - 1, an empty page, and lists of unequal length. -/
theorem witness_DecodeOfEncode : (Instr.readPage 0xFFFFFF#24 1#24).WellFormed ∧
    (Instr.readPage 0xFFFFFF#24 0#24).WellFormed ∧ (Instr.writeBytes [0xFFFFFF#24] []).WellFormed := by decide

theorem witness_EncodeOfDecode :
    decode [0x17000001#32, 0x00000000#32, 0x00FFFFFF#32, 0xFFFFFFFF#32] = .ok (.writeBytes [0xFFFFFF#24] []) 3 := by decide

theorem witness_DecodeVerdictIsStable : decode [0x01000000#32] ≠ .needMore ∧ decode [0x00000000#32] ≠ .needMore := by decide

/-- The values beside the three runs of codes of R75. -/
theorem witness_UnknownOpcodesAreIllegal : opField 0x00FFFFFF#32 ∉ opcodes ∧ opField 0x08000000#32 ∉ opcodes ∧
    opField 0x0F000000#32 ∉ opcodes ∧ opField 0x1B000000#32 ∉ opcodes ∧ opField 0xFF000000#32 ∉ opcodes := by decide

/-- One word for each clause, with the lowest or the highest bit of the field set. -/
theorem witness_ReservedFieldsAreRefused :
    (opField 0x01000001#32 ∈ [0x01#8, 0x02#8, 0x03#8, 0x04#8, 0x05#8, 0x10#8, 0x11#8, 0x12#8, 0x13#8, 0x18#8, 0x19#8,
      0x1A#8] ∧ lowField 0x01000001#32 ≠ 0#24) ∧
    (opField 0x06000002#32 = 0x06#8 ∧ (0x06000002#32).extractLsb' 1 23 ≠ 0#23) ∧
    (opField 0x07800000#32 = 0x07#8 ∧ (0x07800000#32).extractLsb' 8 16 ≠ 0#16) ∧
    (opField 0x17000000#32 ∈ [0x16#8, 0x17#8] ∧ highField 0x01000000#32 ≠ 0#8) := by decide

theorem witness_EncodedCommandRunsFromReset : (Instr.readPage 0x00FFFF#24 0x100#24).WellFormed := by decide

theorem witness_ClearZeroesTheChain : opField 0x01800000#32 = 0x01#8 ∧ lowField 0x01800000#32 ≠ 0#24 := by decide

theorem witness_ShiftMovesTheChain : (opField 0x02000001#32 = 0x02#8 ∧ lowField 0x02000001#32 ≠ 0#24) ∧
    (idle.srclk = false ∧ idle.clrN = true) := by decide

theorem witness_ShiftNeedsAnEdgeAndClearHigh : { idle with srclk := true }.srclk = true ∧
    ({ idle with clrN := false }.srclk = false ∧ { idle with clrN := false }.clrN = false) := by decide

theorem witness_LatchCopiesTheChain : (opField 0x03000001#32 = 0x03#8 ∧ lowField 0x03000001#32 ≠ 0#24) ∧
    idle.rclk = false ∧ latching.rclk = true := by decide

theorem witness_OnEnablesTheAddressBus : opField 0x04000001#32 = 0x04#8 ∧ lowField 0x04000001#32 ≠ 0#24 := by decide

theorem witness_OffReleasesTheAddressBus : opField 0x05000001#32 = 0x05#8 ∧ lowField 0x05000001#32 ≠ 0#24 := by decide

theorem witness_SendBitShiftsItsBitIn :
    (opField 0x06000003#32 = 0x06#8 ∧ (0x06000003#32).extractLsb' 1 23 ≠ 0#23) ∧
    (idle.srclk = false ∧ idle.clrN = true) := by decide

theorem witness_SendByteReversesItsByte : ClocksIdle idle := by decide

/-- The first and the last of 25 bits: of these the first has left the chain. -/
theorem witness_RepeatedSendBitFillsTheChain : ClocksIdle idle ∧
    (1 ≤ 25 ∧ 25 ≤ (List.replicate 25 true).length ∧ (List.replicate 25 true).length - 25 < 24) ∧
    (1 ≤ 2 ∧ 2 ≤ (List.replicate 25 true).length ∧ (List.replicate 25 true).length - 2 < 24) ∧
    (22 + [true].length < 24) := by decide

theorem witness_ThreeSendBytesLoadThreeReversedBytes : ClocksLow { idle with clrN := false } := by decide

theorem witness_ShiftRegisterFamilyFrame : ShiftRegisterFamily (.sendByte 0x12#8) ∧ ShiftRegisterFamily .off := by decide

theorem witness_SetOneDeselects : opField 0x10000001#32 = 0x10#8 ∧ lowField 0x10000001#32 ≠ 0#24 := by decide

/-- CE_n alone high, WE_n alone high, both low. -/
theorem witness_SetZeroSelectsAndStrobes :
    ({ idle with weN := false }.ceN = true ∨ { idle with weN := false }.weN = true) ∧
    ({ idle with ceN := false }.ceN = true ∨ { idle with ceN := false }.weN = true) ∧
    ({ idle with ceN := false, weN := false }.ceN = false ∧ { idle with ceN := false, weN := false }.weN = false) := by
  decide

theorem witness_IoOutputDrivesTheOldByte : (opField 0x12000001#32 = 0x12#8 ∧ lowField 0x12000001#32 ≠ 0#24) ∧
    ({ idle with ceN := false, oeN := false }.ceN = false ∧ { idle with ceN := false, oeN := false }.oeN = false) := by
  decide

theorem witness_IoInputReleasesTheLines : opField 0x13000001#32 = 0x13#8 ∧ lowField 0x13000001#32 ≠ 0#24 := by decide

theorem witness_SetAddressLoadsTheAddress : ClocksLow idle := by decide

/-- The boundary of the two clauses: 74 and 75 micro-operations. -/
theorem witness_AddressBusChangesOnceInSetAddress : ClocksLow idle ∧ 74 ≤ 74 ∧ 75 ≤ 75 := by decide

theorem witness_ReadByteReadsItsAddress : ClocksLow idealIdle ∧ idealIdle.weN = true ∧ idealIdle.srOeN = false := by decide

/-- After `off`; after `set_0`; and with WE_n alone low. -/
theorem witness_ReadByteIllFormedReturnsAFreeByte :
    (ClocksLow { idle with srOeN := true } ∧ { idle with srOeN := true }.weN = true ∧
      { idle with srOeN := true }.srOeN = true) ∧
    (ClocksLow { idle with ceN := false, oeN := false, weN := false } ∧
      { idle with ceN := false, oeN := false, weN := false }.ceN = false ∧
      { idle with ceN := false, oeN := false, weN := false }.weN = false) ∧
    (ClocksLow { idle with weN := false } ∧ { idle with weN := false }.ceN = true ∧
      { idle with weN := false }.weN = false) := by decide

/-- A page that ends at the last address, and its last offset. -/
theorem witness_ReadPageReadsItsAddressesInOrder : pageInRange 0x000FFF#24 0x001000#24 ∧ ClocksLow idealIdle ∧
    idealIdle.weN = true ∧ idealIdle.srOeN = false ∧ 0xFFF < (0x001000#24).toNat := by decide

/-- The first page beyond the last address. -/
theorem witness_ReadPageOutOfRangeIsRefusedWhole : (0x001000#24).toNat > 0 ∧
    (0x001000#24).toNat * (0x001000#24).toNat + (0x001000#24).toNat > 2 ^ 24 := by decide

theorem witness_WriteBytesStrobesEachPair : ClocksLow idealIdle ∧ idealIdle.srOeN = false := by decide

theorem witness_WriteBytesWithOutputsOffIsIllFormed :
    ClocksLow { idealIdle with srOeN := true } ∧ { idealIdle with srOeN := true }.srOeN = true := by decide

/-- V62: a surplus address; V92 and V91: a bad surplus address word, a bad data word. -/
theorem witness_WriteBytesPairsByPosition :
    (lengthFits [0x10#24, 0x11#24] ∧ lengthFits [0xAB#8]) ∧
    ([0x00000010#32, 0x01000011#32].length = (2#24).toNat ∧ [0x000000FF#32].length = (1#24).toNat ∧
      ∃ w ∈ [0x00000010#32, 0x01000011#32], w.extractLsb' 24 8 ≠ 0#8) ∧
    ([0x00000010#32].length = (1#24).toNat ∧ [0x000001FF#32].length = (1#24).toNat ∧
      ∃ w ∈ [0x000001FF#32], w.extractLsb' 8 24 ≠ 0#24) :=
  ⟨by decide, ⟨by decide, by decide, 0x01000011#32, by simp, by decide⟩, by decide, by decide, 0x000001FF#32, by simp, by decide⟩

/-- V64: the last pair of an address, and an address no pair has. -/
theorem witness_WriteBytesStoresItsPairsOnly :
    (ClocksLow idealIdle ∧ idealIdle.srOeN = false ∧ idealIdle.device = .ideal ∧ Memory.wf idealIdle.mem = true) ∧
    ([0x20#24, 0x20#24].zip [0x11#8, 0x22#8] = [(0x20#24, 0x11#8)] ++ (0x20#24, 0x22#8) :: [] ∧
      ∀ p ∈ ([] : List (Addr × Byte)), p.1 ≠ 0x20#24) ∧
    (∀ p ∈ [0x20#24, 0x20#24].zip [0x11#8, 0x22#8], p.1.toNat ≠ 0x10) :=
  ⟨by decide, ⟨by decide, by simp⟩, by simp⟩

theorem witness_IdealDeviceReadsBackWhatWasWritten : ClocksLow idealIdle ∧ idealIdle.srOeN = false ∧
    idealIdle.device = .ideal ∧ Memory.wf idealIdle.mem = true := by decide

theorem witness_EnableProtectionIsAWriteAndAWait : (opField 0x18000001#32 = 0x18#8 ∧ lowField 0x18000001#32 ≠ 0#24) ∧
    ClocksLow idle ∧ idle.srOeN = false := by decide

theorem witness_DisableProtectionAndEraseChipWriteSixPairs : ClocksLow idle ∧ idle.srOeN = false := by decide

theorem witness_EveryFetchedCommandRunsToDone : (Instr.readPage 0xFFFFFF#24 1#24).WellFormed ∧
    (Instr.writeBytes [0x10#24] [0xFF#8]).WellFormed ∧ Instr.clear.WellFormed := by decide

/-- A micro-operation that changes DIR, DOUT, DIN and SR_OE_n (the statement has no hypotheses). -/
theorem witness_EachRegisterHasItsWriters : (perform (.dir .input) idle).dir ≠ idle.dir ∧
    (perform (.data 0x00#8) idle).dout ≠ idle.dout ∧
    (perform .sample { idealIdle with dir := .input, ceN := false, oeN := false }).din ≠
      { idealIdle with dir := .input, ceN := false, oeN := false }.din ∧
    (perform (.set .srOeN true) idle).srOeN ≠ idle.srOeN := by decide

/-- A strobe by `SET(WE_n,0)`, and a micro-operation that is none. -/
theorem witness_StrobeHappensAtTheStepThatLowersBothLines :
    (strobeLevels (perform (.set .weN false) { idle with ceN := false }) = true ∧
      strobeLevels { idle with ceN := false } = false) ∧
    ¬ (strobeLevels (perform (.set .ceN false) idle) = true ∧ strobeLevels idle = false) := by decide

theorem witness_OnlyOnAndOffChangeTheOutputs : ∃ t, (loaded 0#24 0#24 [0x05000000#32]).turns = [] ∧
    (loaded 0#24 0#24 [0x05000000#32]).run = [] ∧ step (loaded 0#24 0#24 [0x05000000#32]) = .next t ∧
    t.srOeN ≠ (loaded 0#24 0#24 [0x05000000#32]).srOeN :=
  ⟨_, rfl, rfl, rfl, by decide⟩

/-- At a command boundary, and inside a command whose end is a boundary. -/
theorem witness_EveryStepKeepsTheClockInvariant :
    (∃ t, ClockInvariant (loaded 0#24 0#24 [0x02000000#32]) ∧ step (loaded 0#24 0#24 [0x02000000#32]) = .next t ∧
      t.run = []) ∧
    (∃ t, ClockInvariant latching ∧ step latching = .next t) :=
  ⟨⟨_, by decide, rfl, rfl⟩, ⟨_, by decide, rfl⟩⟩

theorem witness_EveryStepKeepsTheMemoryForm :
    ∃ t, Memory.wf { idealIdle with cq := [0x11000000#32] }.mem = true ∧
      step { idealIdle with cq := [0x11000000#32] } = .next t :=
  ⟨_, by decide, rfl⟩

theorem witness_CompositeOperationsAreSafeFromIdle : Composite (.writeBytes [0x10#24] [0xFF#8]) ∧
    (Instr.writeBytes [0x10#24] [0xFF#8]).WellFormed ∧ Deselected idle ∧ idle.srOeN = false ∧ ClocksLow idle := by decide

/-- A run that stays in the ideal device's domain. -/
theorem witness_IdealDeviceAgreesWithItsHistory : idealIdle.device = .ideal ∧
    (performAll [.set .ceN false, .set .weN false] idealIdle).device = .ideal := by decide

/-- A strobe recorded by the general model and accepted by the judge. -/
theorem witness_GeneralRunJudgedIdealIsTheIdealRun : idle.device = .oracle ∧
    (performAll [.set .ceN false, .set .weN false] idle).history = idle.history ++ [.strobe 0x654321#24 0x5A#8] ∧
    judge idle.mem [.strobe 0x654321#24 0x5A#8] = some [(0x654321, 0x5A#8)] := by decide

end Sys2Proof.Tests
end

namespace Sys2Proof.Machine

/-! ## Which micro-operation writes which register (O53)

The latches, registers and RQ after each micro-operation (00_scope.md R8, 10_state.md R21-R35). Beside the registers R8
names, a strobe and a sample touch only the environment: the recorded cycles, the device, its memory and the count of free
values. -/

/-- The state with another environment: recorded cycles, device, MEM and count of free values (R51, R52, R64). -/
def withEnvironment (history : List BusCycle) (device : Device) (mem : Memory) (draws : Nat) (s : State) : State :=
  { s with history := history, device := device, mem := mem, draws := draws }

/-- A strobe changes nothing but the environment (R52). -/
theorem strobeIfNew_withEnvironment (before after : State) : ∃ history device mem draws,
    strobeIfNew before after = withEnvironment history device mem draws after := by
  rcases strobeIfNew_cases before after with h | ⟨-, h⟩ | ⟨-, h⟩ <;> rw [h] <;> exact ⟨_, _, _, _, rfl⟩

/-- A sample writes DIN and the environment only (R51). -/
theorem takeSample_withEnvironment (s : State) : ∃ history device mem draws,
    takeSample s = withEnvironment history device mem draws { s with din := sampledByte s } := by
  rcases sampleDomain_cases s with ⟨-, h⟩ | ⟨-, h⟩ <;> rw [takeSample, h] <;> exact ⟨_, _, _, _, rfl⟩

/-- The conditions of a well-formed read cycle (R51). -/
theorem readWellFormed_iff (s : State) : readWellFormed s = true ↔
    s.dir = .input ∧ s.ceN = false ∧ s.oeN = false ∧ s.weN = true ∧ s.srOeN = false := by
  simp [readWellFormed, and_assoc]

/-- What the chip presents is MEM at PR with the ideal device and a free byte with any other (R64). -/
theorem chipByte_eq (s : State) :
    chipByte s = if s.device = .ideal then memoryRead s.mem s.pr.toNat else Config.freeByte s.draws := by
  unfold chipByte
  cases s.device <;> rfl

/-- A sample reads MEM at PR from the ideal device at a well-formed read cycle, and else a free byte (R51, R64, log 5). -/
theorem sampledByte_eq (s : State) : sampledByte s =
    if s.device = .ideal ∧ s.dir = .input ∧ s.ceN = false ∧ s.oeN = false ∧ s.weN = true ∧ s.srOeN = false then
      memoryRead s.mem s.pr.toNat
    else Config.freeByte s.draws := by
  simp only [sampledByte, chipByte_eq, ← readWellFormed_iff]
  cases readWellFormed s <;> simp

/-- Settles O53, by cases on the micro-operation: each writes its own registers, and what comes after the write (a strobe, a
recorded cycle, the event) touches no register. -/
theorem eachRegisterHasItsWriters : Obligations.EachRegisterHasItsWriters := by
  unfold Obligations.EachRegisterHasItsWriters
  intro m s
  cases m with
  | set l v =>
    obtain ⟨history, device, mem, draws, h⟩ := strobeIfNew_withEnvironment s (setLine l v s)
    rw [perform, h]
    cases l with
    | srclk => simp [withEnvironment, setLine, shiftedChain, shiftIn]
    | clrN => cases v <;> simp [withEnvironment, setLine]
    | _ => simp [withEnvironment, setLine]
  | set3 v =>
    obtain ⟨history, device, mem, draws, h⟩ := strobeIfNew_withEnvironment s (setThree v s)
    rw [perform, h]
    simp [withEnvironment]
  | sample =>
    obtain ⟨history, device, mem, draws, h⟩ := takeSample_withEnvironment s
    rw [perform_sample, h, sampledByte_eq]
    simp [withEnvironment]
  | respData => simp [perform_respData, dataWord]
  | _ => simp [perform]

end Sys2Proof.Machine

namespace Sys2Proof.Machine

open Sys2Proof.Safety

/-! ## What step and controllerStep answer, one equation for each row of the step table (10_state.md R38) -/

section rows

variable {s : State}

/-- A pending turn is taken first (log 4). -/
theorem step_of_turn {turn : Turn} {rest : List Turn} (ht : s.turns = turn :: rest) :
    step s = .next (takeTurn turn { s with turns := rest }) := by
  simp [step, nextMove, ht]

/-- EXEC: inside a command a step performs the head of RUN. -/
theorem step_of_run {m : Micro} {rest : List Micro} (ht : s.turns = []) (hr : s.run = m :: rest) :
    step s = .next (perform m { s with run := rest }) := by
  simp [step, nextMove, ht, hr]

/-- FETCH and EXEC fused (log 1). -/
theorem step_of_decode_ok {i : Instr} {n : Nat} (h : Ready s) (hd : decode s.cq = .ok i n) :
    step s = exec i (takeWords n s) := by
  obtain ⟨ht, hr, hh⟩ := h
  simp [step, nextMove, ht, hr, hh, hd]

/-- ERROR. -/
theorem step_of_decode_error {code : ErrorCode} {op : Byte} (h : Ready s) (hd : decode s.cq = .error code op) :
    step s = .next (errorEntry code op s) := by
  obtain ⟨ht, hr, hh⟩ := h
  simp [step, nextMove, ht, hr, hh, hd]

/-- The controller waits for the host (log 2). -/
theorem step_of_needMore (h : Ready s) (hd : decode s.cq = .needMore) : step s = .next s := by
  obtain ⟨ht, hr, hh⟩ := h
  simp [step, nextMove, ht, hr, hh, hd]

/-- A halted controller with nothing pending is stuck (log 3). -/
theorem step_of_halted (ht : s.turns = []) (hr : s.run = []) (hh : s.halted = true) :
    step s = .fault .halted := by
  simp [step, nextMove, ht, hr, hh]

theorem controllerStep_of_halted (hr : s.run = []) (hh : s.halted = true) : controllerStep s = s := by
  simp [controllerStep, hr, hh]

theorem controllerStep_of_decode_ok {i : Instr} {n : Nat} (hr : s.run = []) (hh : s.halted = false)
    (hd : decode s.cq = .ok i n) : controllerStep s = fetch i n s := by
  simp [controllerStep, hr, hh, hd]

theorem controllerStep_of_decode_error {code : ErrorCode} {op : Byte} (hr : s.run = []) (hh : s.halted = false)
    (hd : decode s.cq = .error code op) : controllerStep s = errorEntry code op s := by
  simp [controllerStep, hr, hh, hd]

theorem controllerStep_of_needMore (hr : s.run = []) (hh : s.halted = false) (hd : decode s.cq = .needMore) :
    controllerStep s = s := by
  simp [controllerStep, hr, hh, hd]

end rows

/-- Which of the two answers a command gives is a matter of the command alone, not of the state. -/
theorem exec_uniform (i : Instr) :
    (∀ s, exec i s = .next (runCommand (opcodeOf i) (expand parameters i) s)) ∨
    (∀ s, exec i s = .next (errorEntry .addressRange 0x16#8 s)) := by
  cases i with
  | readPage page pageSize =>
    by_cases h : pageInRange page pageSize
    · exact .inl (exec_of_wellFormed h)
    · exact .inr (exec_readPage_outOfRange h)
  | _ => exact .inl fun _ => rfl

/-- No micro-operation halts the controller or ends a halt (R36). -/
@[simp] theorem perform_halted (m : Micro) (s : State) : (perform m s).halted = s.halted := by
  obtain ⟨-, -, -, -, -, h⟩ := perform_hostSide m s
  exact h

@[simp] theorem performAll_halted (ms : List Micro) (s : State) : (performAll ms s).halted = s.halted := by
  obtain ⟨-, -, -, -, -, h⟩ := performAll_hostSide ms s
  exact h

@[simp] theorem performAll_run (ms : List Micro) (s : State) : (performAll ms s).run = s.run := by
  obtain ⟨-, -, h, -⟩ := performAll_hostSide ms s
  exact h

@[simp] theorem runCommand_halted (op : Byte) (ops : List Micro) (s : State) :
    (runCommand op ops s).halted = s.halted :=
  performAll_halted _ s

@[simp] theorem runCommand_run (op : Byte) (ops : List Micro) (s : State) : (runCommand op ops s).run = s.run :=
  performAll_run _ s

/-- RUN does not matter to a micro-operation. -/
theorem perform_withRun (m : Micro) (run : List Micro) (s : State) :
    perform m { s with run := run } = { perform m s with run := run } :=
  performAll_withRun [m] run s

end Sys2Proof.Machine

namespace Sys2Proof.Machine

open Sys2Proof.Safety

/-! ## The clock lines along a list of micro-operations (10_state.md R41) -/

/-- Performing the list from idle clock lines ends with idle clock lines. -/
def KeepsClocksIdle (ms : List Micro) : Prop := ∀ s : State, ClocksIdle s → ClocksIdle (performAll ms s)

/-- The micro-operation drives none of SRCLK, RCLK and CLR_n. -/
def MovesNoClock : Micro → Prop
  | .set l _ => l ≠ .srclk ∧ l ≠ .rclk ∧ l ≠ .clrN
  | .set3 _ | .dir _ | .data _ | .wait _ | .sample | .respData | .resp _ => True

/-- The three clock lines are written by their own `SET`s alone (R22, R23, R24). -/
theorem clocksIdle_perform {m : Micro} {s : State} (hm : MovesNoClock m) (h : ClocksIdle s) :
    ClocksIdle (perform m s) := by
  obtain ⟨hlow₁, hlow₂, hhigh⟩ := h
  obtain ⟨-, hsrclk, hrclk, hclrN, -⟩ := eachRegisterHasItsWriters m s
  cases m with
  | set l v =>
    obtain ⟨hl₁, hl₂, hl₃⟩ := hm
    cases l with
    | srclk => exact absurd rfl hl₁
    | rclk => exact absurd rfl hl₂
    | clrN => exact absurd rfl hl₃
    | _ => exact ⟨hsrclk.trans hlow₁, hrclk.trans hlow₂, hclrN.trans hhigh⟩
  | _ => exact ⟨hsrclk.trans hlow₁, hrclk.trans hlow₂, hclrN.trans hhigh⟩

theorem keepsClocksIdle_of_movesNoClock {ms : List Micro} (h : ∀ m ∈ ms, MovesNoClock m) : KeepsClocksIdle ms := by
  induction ms with
  | nil => exact fun _ hs => hs
  | cons m ms ih =>
    intro s hs
    rw [performAll_cons]
    exact ih (fun x hx => h x (List.mem_cons_of_mem m hx)) _ (clocksIdle_perform (h m List.mem_cons_self) hs)

theorem KeepsClocksIdle.append {ms ns : List Micro} (hm : KeepsClocksIdle ms) (hn : KeepsClocksIdle ns) :
    KeepsClocksIdle (ms ++ ns) := by
  intro s hs
  rw [performAll_append]
  exact hn _ (hm s hs)

theorem KeepsClocksIdle.flatMap {α : Type} {f : α → List Micro} (h : ∀ a, KeepsClocksIdle (f a)) (xs : List α) :
    KeepsClocksIdle (xs.flatMap f) := by
  induction xs with
  | nil => exact fun _ hs => hs
  | cons x xs ih =>
    rw [List.flatMap_cons]
    exact (h x).append ih

theorem keepsClocksIdle_clearOps : KeepsClocksIdle clearOps := by
  rintro s ⟨hsrclk, hrclk, -⟩
  rw [performAll_clearOps]
  exact ⟨hsrclk, hrclk, rfl⟩

theorem keepsClocksIdle_shiftOps : KeepsClocksIdle shiftOps := by
  rintro s ⟨hsrclk, hrclk, hclrN⟩
  rw [performAll_shiftOps hsrclk]
  exact ⟨rfl, hrclk, hclrN⟩

theorem keepsClocksIdle_latchOps : KeepsClocksIdle latchOps := by
  rintro s ⟨hsrclk, hrclk, hclrN⟩
  rw [performAll_latchOps hrclk]
  exact ⟨hsrclk, rfl, hclrN⟩

theorem keepsClocksIdle_sendBitOps (bit : Level) : KeepsClocksIdle (sendBitOps bit) := by
  rintro s ⟨hsrclk, hrclk, hclrN⟩
  rw [performAll_sendBitOps bit hsrclk hclrN]
  exact ⟨rfl, hrclk, hclrN⟩

theorem keepsClocksIdle_sendByteOps (value : Byte) : KeepsClocksIdle (sendByteOps value) :=
  (KeepsClocksIdle.flatMap keepsClocksIdle_sendBitOps _).append keepsClocksIdle_latchOps

theorem keepsClocksIdle_setAddressOps (addr : Addr) : KeepsClocksIdle (setAddressOps addr) :=
  (keepsClocksIdle_clearOps.append (.flatMap keepsClocksIdle_sendBitOps _)).append keepsClocksIdle_latchOps

theorem keepsClocksIdle_readByteOps (c : Config) (addr : Addr) : KeepsClocksIdle (readByteOps c addr) := by
  rw [readByteOps, List.append_assoc, List.append_assoc, List.append_assoc]
  refine .append ?_ ((keepsClocksIdle_setAddressOps addr).append ?_) <;>
    exact keepsClocksIdle_of_movesNoClock (by simp [ioInputOps, set1Ops, MovesNoClock])

theorem keepsClocksIdle_writePairOps (c : Config) (p : Addr × Byte) : KeepsClocksIdle (writePairOps c p) :=
  (keepsClocksIdle_setAddressOps p.1).append (keepsClocksIdle_of_movesNoClock (by simp [MovesNoClock]))

theorem keepsClocksIdle_writePairsOps (c : Config) (ps : List (Addr × Byte)) :
    KeepsClocksIdle (writePairsOps c ps) := by
  refine .append (.append ?_ (.flatMap (keepsClocksIdle_writePairOps c) ps)) ?_ <;>
    exact keepsClocksIdle_of_movesNoClock
      (by simp [writeOpeningOps, writeClosingOps, ioOutputOps, set1Ops, MovesNoClock])

theorem keepsClocksIdle_helperOps (c : Config) (ps : List (Addr × Byte)) : KeepsClocksIdle (helperOps c ps) :=
  (keepsClocksIdle_writePairsOps c ps).append (keepsClocksIdle_of_movesNoClock (by simp [MovesNoClock]))

/-- The list of every command brings the clock lines back to their idle levels (R41). -/
theorem keepsClocksIdle_expand (c : Config) (i : Instr) : KeepsClocksIdle (expand c i) := by
  cases i with
  | clear => exact keepsClocksIdle_clearOps
  | shift => exact keepsClocksIdle_shiftOps
  | latch => exact keepsClocksIdle_latchOps
  | sendBit bit => exact keepsClocksIdle_sendBitOps bit
  | sendByte value => exact keepsClocksIdle_sendByteOps value
  | setAddress addr => exact keepsClocksIdle_setAddressOps addr
  | readByte addr => exact keepsClocksIdle_readByteOps c addr
  | readPage page pageSize => exact .flatMap (keepsClocksIdle_readByteOps c) _
  | writeBytes addresses data => exact keepsClocksIdle_writePairsOps c _
  | enableProtection | disableProtection | eraseChip => exact keepsClocksIdle_helperOps c _
  | on | off | set1 | set0 | ioOutput | ioInput =>
    exact keepsClocksIdle_of_movesNoClock
      (by simp [expand, onOps, offOps, set1Ops, set0Ops, ioOutputOps, ioInputOps, MovesNoClock])

/-- So does a fetched command, its DONE response included. -/
theorem keepsClocksIdle_command (c : Config) (i : Instr) (w : Word) : KeepsClocksIdle (expand c i ++ [.resp w]) :=
  (keepsClocksIdle_expand c i).append (keepsClocksIdle_of_movesNoClock (by simp [MovesNoClock]))

/-! ## The clock invariant along the steps -/

section invariant

variable {s t : State}

/-- At a command boundary there is nothing left to run. -/
theorem runOut_of_boundary (hr : s.run = []) : runOut s = s := by
  rw [runOut, hr, performAll_nil]

theorem clockInvariant_of_boundary (hr : s.run = []) (h : ClocksIdle s) : ClockInvariant s :=
  ⟨(runOut_of_boundary hr).symm ▸ h, fun _ => hr⟩

theorem clocksIdle_of_clockInvariant (h : ClockInvariant s) (hr : s.run = []) : ClocksIdle s :=
  runOut_of_boundary hr ▸ h.1

/-- The invariant does not read the queues, the schedule or the received words. -/
theorem clockInvariant_withHostSide (h : ClockInvariant s) (cq rq : List Word) (turns : List Turn)
    (received : List Word) : ClockInvariant (withHostSide cq rq s.run turns received s) := by
  obtain ⟨new, hnew⟩ := performAll_withHostSide s.run s
  refine ⟨?_, h.2⟩
  have hrun : runOut (withHostSide cq rq s.run turns received s) = _ := hnew cq rq s.run turns received
  rw [hrun]
  exact h.1

/-- EXEC shortens RUN by what it performs, so the end of the command stays where it was. -/
theorem clockInvariant_perform_head {m : Micro} {rest : List Micro} (h : ClockInvariant s) (hr : s.run = m :: rest) :
    ClockInvariant (perform m { s with run := rest }) := by
  obtain ⟨hend, hhalted⟩ := h
  have hrunOut : runOut (perform m { s with run := rest }) = { runOut s with run := rest } := by
    rw [perform_withRun, runOut, runOut, hr, performAll_withRun, performAll_cons]
  refine ⟨by rw [hrunOut]; exact hend, fun hh => ?_⟩
  rw [perform_halted] at hh
  cases hr.symm.trans (hhalted hh)

theorem clockInvariant_errorEntry (h : ClockInvariant s) (hr : s.run = []) (code : ErrorCode) (op : Byte) :
    ClockInvariant (errorEntry code op s) := by
  have hs : ClocksIdle s := clocksIdle_of_clockInvariant h hr
  exact clockInvariant_of_boundary hr hs

/-- FETCH puts a whole command into RUN, whose end has idle clock lines. -/
theorem clockInvariant_fetch (h : ClockInvariant s) (hr : s.run = []) (hh : s.halted = false) (i : Instr) (n : Nat) :
    ClockInvariant (fetch i n s) := by
  have hs : ClocksIdle s := clocksIdle_of_clockInvariant h hr
  refine ⟨keepsClocksIdle_command parameters i _ (fetch i n s) hs, fun hf => ?_⟩
  cases hh.symm.trans hf

theorem clockInvariant_controllerStep (h : ClockInvariant s) : ClockInvariant (controllerStep s) := by
  rcases controllerStep_cases s with ⟨m, rest, hr, he⟩ | ⟨-, -, he⟩ | ⟨hr, hh, i, n, -, he⟩ |
    ⟨hr, -, code, op, -, he⟩ | ⟨-, -, -, he⟩ <;> rw [he]
  · exact clockInvariant_perform_head h hr
  · exact h
  · exact clockInvariant_fetch h hr hh i n
  · exact clockInvariant_errorEntry h hr code op
  · exact h

theorem clockInvariant_hostPop (h : ClockInvariant s) : ClockInvariant (hostPop s) := by
  unfold hostPop
  split
  · exact h
  · exact clockInvariant_withHostSide h _ _ _ _

theorem clockInvariant_hardReset (s : State) : ClockInvariant (hardReset s) :=
  clockInvariant_of_boundary rfl ⟨rfl, rfl, rfl⟩

theorem clockInvariant_takeTurn (h : ClockInvariant s) (turn : Turn) : ClockInvariant (takeTurn turn s) := by
  cases turn with
  | push w => exact clockInvariant_withHostSide h (s.cq ++ [w]) s.rq s.turns s.received
  | pop => exact clockInvariant_hostPop h
  | controller => exact clockInvariant_controllerStep h
  | reset => exact clockInvariant_hardReset s

/-- A whole command from one boundary to the next. -/
theorem clockInvariant_exec {i : Instr} (h : ClockInvariant s) (hr : s.run = []) (he : exec i s = .next t) :
    ClockInvariant t := by
  rcases exec_uniform i with hi | hi <;> cases (hi s).symm.trans he
  · exact clockInvariant_of_boundary ((runCommand_run _ _ s).trans hr)
      (keepsClocksIdle_command parameters i _ s (clocksIdle_of_clockInvariant h hr))
  · exact clockInvariant_errorEntry h hr _ _

theorem clockInvariant_step (h : ClockInvariant s) (hst : step s = .next t) : ClockInvariant t := by
  rcases step_cases hst with ⟨turn, rest, -, rfl⟩ | ⟨-, m, rest, hr, rfl⟩ | ⟨-, hr, -, i, n, -, he⟩ |
    ⟨-, hr, -, code, op, -, rfl⟩ | ⟨-, -, -, -, rfl⟩
  · exact clockInvariant_takeTurn (clockInvariant_withHostSide h s.cq s.rq rest s.received) turn
  · exact clockInvariant_perform_head h hr
  · exact clockInvariant_exec (clockInvariant_withHostSide h (s.cq.drop n) s.rq s.turns s.received) hr he
  · exact clockInvariant_errorEntry h hr code op
  · exact h

end invariant

/-- Settles O56: the invariant is kept by each row of the step table, and at a boundary it is the levels of R41. -/
theorem everyStepKeepsTheClockInvariant : Obligations.EveryStepKeepsTheClockInvariant := by
  unfold Obligations.EveryStepKeepsTheClockInvariant
  intro s t h hst
  exact ⟨clockInvariant_step h hst, clocksIdle_of_clockInvariant (clockInvariant_step h hst)⟩

end Sys2Proof.Machine

namespace Sys2Proof

/-! ## What decode answers (30_encoding.md R72, R75-R77, R79) -/

/-- Every case of decode on a queue with a word 0: the format the operation code selects reads the words, or the code is
outside the opcode map (R75, R76). -/
theorem decode_cons_cases (w0 : Word) :
    (∃ i, i.WellFormed ∧ ∀ ws, decode (w0 :: ws) = decodeZ i w0) ∨
    (∀ ws, decode (w0 :: ws) = decodeB1 .sendBit w0) ∨
    (∀ ws, decode (w0 :: ws) = decodeB8 .sendByte w0) ∨
    (∃ mk : Addr → Instr, (∀ a, (mk a).WellFormed) ∧ ∀ ws, decode (w0 :: ws) = decodeA24 mk w0) ∨
    (∀ ws, decode (w0 :: ws) = decodePG w0 ws) ∨
    (∀ ws, decode (w0 :: ws) = decodeWB w0 ws) ∨
    (opField w0 ∉ opcodes ∧ ∀ ws, decode (w0 :: ws) = .error .illegalOpcode (opField w0)) := by
  by_cases hop : opField w0 ∈ opcodes
  · simp only [opcodes, List.mem_cons, List.not_mem_nil, or_false] at hop
    rcases hop with h | h | h | h | h | h | h | h | h | h | h | h | h | h | h | h | h | h
    · exact .inl ⟨.clear, trivial, fun ws => by simp [decode, h]⟩
    · exact .inl ⟨.shift, trivial, fun ws => by simp [decode, h]⟩
    · exact .inl ⟨.latch, trivial, fun ws => by simp [decode, h]⟩
    · exact .inl ⟨.on, trivial, fun ws => by simp [decode, h]⟩
    · exact .inl ⟨.off, trivial, fun ws => by simp [decode, h]⟩
    · exact .inr (.inl fun ws => by simp [decode, h])
    · exact .inr (.inr (.inl fun ws => by simp [decode, h]))
    · exact .inl ⟨.set1, trivial, fun ws => by simp [decode, h]⟩
    · exact .inl ⟨.set0, trivial, fun ws => by simp [decode, h]⟩
    · exact .inl ⟨.ioOutput, trivial, fun ws => by simp [decode, h]⟩
    · exact .inl ⟨.ioInput, trivial, fun ws => by simp [decode, h]⟩
    · exact .inr (.inr (.inr (.inl ⟨.setAddress, fun _ => trivial, fun ws => by simp [decode, h]⟩)))
    · exact .inr (.inr (.inr (.inl ⟨.readByte, fun _ => trivial, fun ws => by simp [decode, h]⟩)))
    · exact .inr (.inr (.inr (.inr (.inl fun ws => by simp [decode, h]))))
    · exact .inr (.inr (.inr (.inr (.inr (.inl fun ws => by simp [decode, h])))))
    · exact .inl ⟨.enableProtection, trivial, fun ws => by simp [decode, h]⟩
    · exact .inl ⟨.disableProtection, trivial, fun ws => by simp [decode, h]⟩
    · exact .inl ⟨.eraseChip, trivial, fun ws => by simp [decode, h]⟩
  · refine .inr (.inr (.inr (.inr (.inr (.inr ⟨hop, fun ws => ?_⟩)))))
    unfold decode
    split <;> simp_all [opcodes]

/-- A verdict Ok of format PG (R77): both words are there and the page is in range. -/
theorem decodePG_ok {w0 : Word} {ws : List Word} {i : Instr} {n : Nat} (h : decodePG w0 ws = .ok i n) :
    i.WellFormed ∧ n ≤ ws.length + 1 := by
  cases ws with
  | nil => cases h
  | cons w1 ws =>
    simp only [decodePG] at h
    split at h
    · split at h
      · next hpage => cases h; exact ⟨hpage, by simp⟩
      · cases h
    · cases h

/-- A verdict Ok of format WB (R77): the two scans have found all their words, and their number fits its field. -/
theorem decodeWB_ok {w0 : Word} {ws : List Word} {i : Instr} {n : Nat} (h : decodeWB w0 ws = .ok i n) :
    i.WellFormed ∧ n ≤ ws.length + 1 := by
  cases ws with
  | nil => cases h
  | cons w1 ws =>
    simp only [decodeWB] at h
    split at h
    · split at h
      · cases h
      · cases h
      · next addresses rest haddresses =>
        split at h
        · cases h
        · cases h
        · next data more hdata =>
          cases h
          obtain ⟨hna, -, hrest, -, hla⟩ := scanWords_done haddresses
          obtain ⟨hnd, -, -, -, hld⟩ := scanWords_done hdata
          rw [hrest, List.length_drop] at hnd
          have hn : 2 + (lowField w0).toNat + (lowField w1).toNat ≤ (w1 :: ws).length + 1 := by
            rw [List.length_cons]
            omega
          exact ⟨⟨hla.trans_lt (lowField w0).isLt, hld.trans_lt (lowField w1).isLt⟩, hn⟩
    · cases h

/-- Decode reads well-formed commands only, and only words that are there (R77). -/
theorem decode_ok {ws : List Word} {i : Instr} {n : Nat} (h : decode ws = .ok i n) :
    i.WellFormed ∧ n ≤ ws.length := by
  cases ws with
  | nil => cases h
  | cons w0 ws =>
    have hone : 1 ≤ (w0 :: ws).length := by simp
    rcases decode_cons_cases w0 with ⟨j, hj, hd⟩ | hd | hd | ⟨mk, hmk, hd⟩ | hd | hd | ⟨-, hd⟩ <;> rw [hd] at h
    · unfold decodeZ at h
      split at h <;> cases h
      exact ⟨hj, hone⟩
    · unfold decodeB1 at h
      split at h <;> cases h
      exact ⟨trivial, hone⟩
    · unfold decodeB8 at h
      split at h <;> cases h
      exact ⟨trivial, hone⟩
    · cases h
      exact ⟨hmk _, hone⟩
    · exact decodePG_ok h
    · exact decodeWB_ok h
    · cases h

theorem decodePG_append {w0 : Word} {ws : List Word} (more : List Word) (h : decodePG w0 ws ≠ .needMore) :
    decodePG w0 (ws ++ more) = decodePG w0 ws := by
  cases ws with
  | nil => exact absurd rfl h
  | cons w1 ws => rfl

theorem decodeWB_append {w0 : Word} {ws : List Word} (more : List Word) (h : decodeWB w0 ws ≠ .needMore) :
    decodeWB w0 (ws ++ more) = decodeWB w0 ws := by
  cases ws with
  | nil => exact absurd rfl h
  | cons w1 ws =>
    by_cases hmbz : highField w1 = 0#8
    · simp only [decodeWB, List.cons_append, if_pos hmbz] at h ⊢
      have haddresses := scanWords_append addressWordMbz lowField (lowField w0).toNat ws more
      cases hscan : scanWords addressWordMbz lowField (lowField w0).toNat ws with
      | reserved => rw [hscan] at haddresses; simp only [haddresses]
      | needMore => simp [hscan] at h
      | done addresses rest =>
        rw [hscan] at haddresses
        have hdata := scanWords_append dataWordMbz byteField (lowField w1).toNat rest more
        simp only [haddresses]
        cases hscan' : scanWords dataWordMbz byteField (lowField w1).toNat rest with
        | reserved => rw [hscan'] at hdata; simp only [hdata]
        | needMore => simp [hscan, hscan'] at h
        | done data rest' => rw [hscan'] at hdata; simp only [hdata]
    · simp only [decodeWB, List.cons_append, if_neg hmbz]

/-- Words pushed after a verdict has been reached do not change it (R77). -/
theorem decode_append {ws : List Word} (more : List Word) (h : decode ws ≠ .needMore) :
    decode (ws ++ more) = decode ws := by
  cases ws with
  | nil => exact absurd rfl h
  | cons w0 ws =>
    rcases decode_cons_cases w0 with ⟨i, -, hd⟩ | hd | hd | ⟨mk, -, hd⟩ | hd | hd | ⟨-, hd⟩ <;>
      simp only [List.cons_append, hd] at h ⊢
    · exact decodePG_append more h
    · exact decodeWB_append more h

/-- Decode reads back what encode has written, whatever follows it (R79). -/
theorem decode_encode {i : Instr} (h : i.WellFormed) (rest : List Word) :
    decode (encode i ++ rest) = .ok i (encode i).length := by
  cases i with
  | sendBit bit =>
    have hbits : (packWord 0x06#8 ((BitVec.ofBool bit).setWidth 24)).extractLsb' 1 23 = 0#23 ∧
        bitField (packWord 0x06#8 ((BitVec.ofBool bit).setWidth 24)) = bit := by
      cases bit <;> decide
    simp [encode, decode, opcodeOf, opField_packWord, decodeB1, hbits]
  | sendByte value =>
    have hzero : (packWord 0x07#8 (value.setWidth 24)).extractLsb' 8 16 = 0#16 := by
      apply BitVec.eq_of_getLsbD_eq
      intro k hk
      have hlow : 8 + k < 24 := by omega
      simp only [packWord, BitVec.getLsbD_extractLsb', BitVec.getLsbD_append]
      simp [hlow]
    simp [encode, decode, opcodeOf, opField_packWord, decodeB8, hzero, byteField_packWord]
  | setAddress addr => simp [encode, decode, opcodeOf, opField_packWord, decodeA24, lowField_packWord]
  | readByte addr => simp [encode, decode, opcodeOf, opField_packWord, decodeA24, lowField_packWord]
  | readPage page pageSize =>
    have hpage : pageInRange page pageSize := h
    simp [encode, decode, opcodeOf, opField_packWord, decodePG, highField_packWord, lowField_packWord, hpage]
  | writeBytes addresses data =>
    obtain ⟨hna, hnd⟩ := h
    have hlenA : (BitVec.ofNat 24 addresses.length).toNat = addresses.length := Nat.mod_eq_of_lt hna
    have hlenD : (BitVec.ofNat 24 data.length).toNat = data.length := Nat.mod_eq_of_lt hnd
    have haddresses (more : List Word) := scanWords_map addressWordMbz lowField (packWord 0#8)
      addressWordMbz_packWord (lowField_packWord 0#8) addresses more
    have hdata (more : List Word) := scanWords_map dataWordMbz byteField (fun d => packWord 0#8 (d.setWidth 24))
      dataWordMbz_packWord (byteField_packWord 0#8) data more
    simp [encode, decode, opcodeOf, opField_packWord, decodeWB, highField_packWord, lowField_packWord,
      hlenA, hlenD, haddresses, hdata, -BitVec.toNat_ofNat]
    omega
  | clear | shift | latch | on | off | set1 | set0 | ioOutput | ioInput | enableProtection | disableProtection
  | eraseChip => simp [encode, decode, opcodeOf, opField_packWord, decodeZ, lowField_packWord]

end Sys2Proof

namespace Sys2Proof.Machine

open Sys2Proof.Safety

/-! ## HALTED along the steps (10_state.md R36) -/

/-- A command that decode has read runs its list to DONE. -/
theorem exec_of_decode_ok {ws : List Word} {i : Instr} {n : Nat} (hd : decode ws = .ok i n) (s : State) :
    exec i s = .next (runCommand (opcodeOf i) (expand parameters i) s) :=
  exec_of_wellFormed (decode_ok hd).1 s

@[simp] theorem hostPop_halted (s : State) : (hostPop s).halted = s.halted := by
  unfold hostPop
  split <;> rfl

/-- Only a decode error at a command boundary changes HALTED in a controller step, and it sets it. -/
theorem controllerStep_halted (s : State) :
    (controllerStep s).halted = s.halted ∨
    ((controllerStep s).halted = true ∧ s.run = [] ∧ ∃ code op, decode s.cq = .error code op) := by
  rcases controllerStep_cases s with ⟨m, rest, -, he⟩ | ⟨-, -, he⟩ | ⟨-, -, i, n, -, he⟩ |
    ⟨hr, -, code, op, hd, he⟩ | ⟨-, -, -, he⟩ <;> rw [he]
  · exact .inl (perform_halted m _)
  · exact .inl rfl
  · exact .inl rfl
  · exact .inr ⟨rfl, hr, code, op, hd⟩
  · exact .inl rfl

/-- Everything a step can do to HALTED: nothing, set it where decode answers an error, or clear it by the reset turn. -/
theorem step_halted {s t : State} (h : step s = .next t) :
    t.halted = s.halted ∨
    (t.halted = true ∧ s.run = [] ∧ ∃ code op, decode s.cq = .error code op) ∨
    (t.halted = false ∧ ∃ rest, s.turns = .reset :: rest) := by
  rcases step_cases h with ⟨turn, rest, ht, rfl⟩ | ⟨-, m, rest, -, rfl⟩ | ⟨-, -, -, i, n, hd, he⟩ |
    ⟨-, hr, -, code, op, hd, rfl⟩ | ⟨-, -, -, -, rfl⟩
  · cases turn with
    | push w => exact .inl rfl
    | pop => exact .inl (hostPop_halted _)
    | controller => exact (controllerStep_halted { s with turns := rest }).imp_right .inl
    | reset => exact .inr (.inr ⟨rfl, rest, ht⟩)
  · exact .inl (perform_halted m _)
  · cases (exec_of_decode_ok hd _).symm.trans he
    exact .inl (runCommand_halted _ _ _)
  · exact .inr (.inl ⟨rfl, hr, code, op, hd⟩)
  · exact .inl rfl

/-- Settles O7: `step_halted` gives the only two changes of HALTED. -/
theorem haltedIsStickyAndSetByErrorsOnly : Obligations.HaltedIsStickyAndSetByErrorsOnly := by
  unfold Obligations.HaltedIsStickyAndSetByErrorsOnly
  refine ⟨fun s t hst hs ht => ?_, fun s t hst hs ht => ?_, fun s hinv hs => ?_, rfl⟩
  · rcases step_halted hst with h | ⟨-, h⟩ | ⟨h, -⟩
    · simp [h, hs] at ht
    · exact h
    · simp [h] at ht
  · rcases step_halted hst with h | ⟨h, -⟩ | ⟨-, h⟩
    · simp [h, hs] at ht
    · simp [h] at ht
    · exact h
  · exact controllerStep_of_halted (hinv.2 hs) hs

/-- Settles O8: every row of the step table but the halted one answers a next state. -/
theorem stepStopsExactlyWhenHalted : Obligations.StepStopsExactlyWhenHalted := by
  unfold Obligations.StepStopsExactlyWhenHalted
  intro s r
  constructor
  · intro hstep
    cases ht : s.turns with
    | cons turn rest => cases (step_of_turn ht).symm.trans hstep
    | nil =>
      cases hr : s.run with
      | cons m rest => cases (step_of_run ht hr).symm.trans hstep
      | nil =>
        cases hh : s.halted with
        | true =>
          cases (step_of_halted ht hr hh).symm.trans hstep
          exact ⟨rfl, rfl, rfl, rfl⟩
        | false =>
          have hready : Ready s := ⟨ht, hr, hh⟩
          cases hd : decode s.cq with
          | ok i n => cases ((step_of_decode_ok hready hd).trans (exec_of_decode_ok hd _)).symm.trans hstep
          | error code op => cases (step_of_decode_error hready hd).symm.trans hstep
          | needMore => cases (step_of_needMore hready hd).symm.trans hstep
  · rintro ⟨rfl, ht, hr, hh⟩
    exact step_of_halted ht hr hh

end Sys2Proof.Machine

namespace Sys2Proof.Machine

open Sys2Proof.Safety

/-! ## Commands: fused, by micro-operations, beside the host, from reset (10_state.md R38) -/

/-- From a command boundary, controller steps through a list put into RUN are the list performed. -/
theorem controllerSteps_withRun (ms : List Micro) {s : State} (hr : s.run = []) :
    controllerSteps ms.length { s with run := ms } = performAll ms s := by
  have hend : (performAll ms s).run = [] := (performAll_run ms s).trans hr
  calc controllerSteps ms.length { s with run := ms }
      = { performAll ms { s with run := ms } with run := [] } := controllerSteps_of_run ms rfl
    _ = { performAll ms s with run := [] } := by rw [performAll_withRun]
    _ = performAll ms s := by rw [← hend]

/-- The fused command is the one whose list, with its DONE response, FETCH has put into RUN. -/
theorem controllerSteps_of_fetched (i : Instr) (n : Nat) {s : State} (hr : s.run = []) :
    controllerSteps ((expand parameters i).length + 1) (fetch i n s) =
      runCommand (opcodeOf i) (expand parameters i) (takeWords n s) := by
  have h := controllerSteps_withRun (expand parameters i ++ [.resp (doneWord (opcodeOf i))]) (s := takeWords n s) hr
  rwa [List.length_append, List.length_singleton] at h

/-- Settles O11: one controller step is FETCH, the others perform RUN. -/
theorem commandStepIsItsMicroSteps : Obligations.CommandStepIsItsMicroSteps := by
  unfold Obligations.CommandStepIsItsMicroSteps
  intro s i n hready hd
  have ⟨_, hr, hh⟩ := hready
  refine ⟨runCommand (opcodeOf i) (expand parameters i) (takeWords n s), ?_, (runCommand_run _ _ _).trans hr, ?_⟩
  · rw [step_of_decode_ok hready hd, exec_of_decode_ok hd]
  · rw [controllerSteps, controllerStep_of_decode_ok hr hh hd, controllerSteps_of_fetched i n hr]

theorem hostPop_of_cons {s : State} {w : Word} {ws : List Word} (h : s.rq = w :: ws) :
    hostPop s = { s with rq := ws, received := s.received ++ [w] } := by
  simp [hostPop, h]

theorem hostPop_of_nil {s : State} (h : s.rq = []) : hostPop s = s := by
  simp [hostPop, h]

/-- PUSH commutes with a controller step inside a command: EXEC does not read CQ. -/
theorem controllerStep_hostPush_of_run (w : Word) {s : State} (h : s.run ≠ []) :
    controllerStep (hostPush w s) = hostPush w (controllerStep s) := by
  obtain ⟨m, rest, hr⟩ := List.exists_cons_of_ne_nil h
  rw [controllerStep_of_run hr, controllerStep_of_run (s := hostPush w s) hr]
  exact performAll_hostPush [m] w { s with run := rest }

/-- POP commutes with a controller step inside a command: EXEC only appends to RQ. -/
theorem controllerStep_hostPop_of_run {s : State} (h : s.run ≠ []) (hrq : s.rq ≠ []) :
    controllerStep (hostPop s) = hostPop (controllerStep s) := by
  obtain ⟨m, rest, hr⟩ := List.exists_cons_of_ne_nil h
  obtain ⟨w, ws, hw⟩ := List.exists_cons_of_ne_nil hrq
  have hpop : { hostPop s with run := rest } = hostPop { s with run := rest } := by
    rw [hostPop_of_cons hw, hostPop_of_cons (s := { s with run := rest }) hw]
  have hrun : (hostPop s).run = m :: rest := by rw [hostPop_of_cons hw]; exact hr
  rw [controllerStep_of_run hr, controllerStep_of_run hrun, hpop]
  exact performAll_hostPop [m] (s := { s with run := rest }) hrq

/-- A word pushed after the verdict has been reached is no word of the command: PUSH commutes with FETCH. -/
theorem fetch_hostPush (w : Word) {i : Instr} {n : Nat} {s : State} (hd : decode s.cq = .ok i n) :
    fetch i n (hostPush w s) = hostPush w (fetch i n s) := by
  have hdrop : (s.cq ++ [w]).drop n = s.cq.drop n ++ [w] := List.drop_append_of_le_length (decode_ok hd).2
  simp only [fetch, takeWords, hostPush, hdrop]

/-- PUSH commutes with a controller step wherever decode has reached a verdict (R77). -/
theorem controllerStep_hostPush (w : Word) {s : State} (h : decode s.cq ≠ .needMore) :
    controllerStep (hostPush w s) = hostPush w (controllerStep s) := by
  by_cases hr : s.run = []
  · cases hh : s.halted with
    | true => rw [controllerStep_of_halted hr hh, controllerStep_of_halted (s := hostPush w s) hr hh]
    | false =>
      have hpush : decode (hostPush w s).cq = decode s.cq := decode_append [w] h
      cases hd : decode s.cq with
      | ok i n =>
        rw [controllerStep_of_decode_ok hr hh hd,
          controllerStep_of_decode_ok (s := hostPush w s) hr hh (hpush.trans hd), fetch_hostPush w hd]
      | error code op =>
        rw [controllerStep_of_decode_error hr hh hd,
          controllerStep_of_decode_error (s := hostPush w s) hr hh (hpush.trans hd)]
        rfl
      | needMore => exact absurd hd h
  · exact controllerStep_hostPush_of_run w hr

theorem exec_hostPush (w : Word) (i : Instr) (s : State) :
    ∃ t, exec i s = .next t ∧ exec i (hostPush w s) = .next (hostPush w t) := by
  rcases exec_uniform i with hi | hi
  · exact ⟨_, hi s, by rw [hi, runCommand, performAll_hostPush, ← runCommand]⟩
  · exact ⟨_, hi s, hi _⟩

theorem exec_hostPop (i : Instr) {s : State} (h : s.rq ≠ []) :
    ∃ t, exec i s = .next t ∧ exec i (hostPop s) = .next (hostPop t) := by
  rcases exec_uniform i with hi | hi
  · exact ⟨_, hi s, by rw [hi, runCommand, performAll_hostPop _ h, ← runCommand]⟩
  · obtain ⟨w, ws, hw⟩ := List.exists_cons_of_ne_nil h
    refine ⟨_, hi s, ?_⟩
    have hrq : (errorEntry .addressRange 0x16#8 s).rq = w :: (ws ++ [errWord .addressRange 0x16#8]) := by
      simp [errorEntry, hw]
    rw [hi, hostPop_of_cons hw, hostPop_of_cons hrq]
    rfl

/-- Settles O12. -/
theorem hostStepsDoNotDisturbCommands : Obligations.HostStepsDoNotDisturbCommands := by
  unfold Obligations.HostStepsDoNotDisturbCommands
  exact ⟨fun w _ h => controllerStep_hostPush_of_run w h, fun _ h hrq => controllerStep_hostPop_of_run h hrq,
    exec_hostPush, fun i _ h => exec_hostPop i h, fun w _ h => controllerStep_hostPush w h⟩

/-- Settles O20: decode reads the command back, and its words are all of CQ. -/
theorem encodedCommandRunsFromReset : Obligations.EncodedCommandRunsFromReset := by
  unfold Obligations.EncodedCommandRunsFromReset
  intro sc pr dout din i hi
  have hd : decode (encode i) = .ok i (encode i).length := by simpa using decode_encode hi []
  have hready : Ready { State.resetWith sc pr dout din with cq := encode i } := ⟨rfl, rfl, rfl⟩
  rw [step_of_decode_ok hready hd, takeWords, List.drop_length]
  rfl

/-- Settles O50: the list of a command only appends to RQ and TRACE, and the DONE response comes last. -/
theorem everyFetchedCommandRunsToDone : Obligations.EveryFetchedCommandRunsToDone := by
  unfold Obligations.EveryFetchedCommandRunsToDone
  intro i s hi
  obtain ⟨hcq, ⟨data, hrq⟩, hrun, hturns, hreceived, hhalted⟩ := performAll_hostSide (expand parameters i) s
  obtain ⟨events, hlength, htrace⟩ := performAll_trace_length (expand parameters i) s
  refine ⟨_, exec_of_wellFormed hi s, ?_⟩
  rw [runCommand_eq]
  exact ⟨hhalted, hcq, hrun, hturns, hreceived, ⟨data, by simp [hrq]⟩, events, hlength, by simp [htrace]⟩

/-- Settles O4: it is the row of FETCH in the step table. -/
theorem stepRunsTheDecodedCommand : Obligations.StepRunsTheDecodedCommand := by
  unfold Obligations.StepRunsTheDecodedCommand
  exact fun _ _ _ hready hd => step_of_decode_ok hready hd

end Sys2Proof.Machine

namespace Sys2Proof.Machine

open Sys2Proof.Safety

/-! ## Turns, waiting and reset (10_state.md R38, R44) -/

/-- Settles O5: with the turn removed, each row of the controller's table is one equation of `controllerStep`. -/
theorem controllerTurnTakesOneStepOfTheTable : Obligations.ControllerTurnTakesOneStepOfTheTable := by
  unfold Obligations.ControllerTurnTakesOneStepOfTheTable
  refine ⟨fun s m rest ht hr => step_of_run ht hr, fun s turns ht => ?_⟩
  have hstep : step s = .next (controllerStep { s with turns := turns }) := step_of_turn ht
  refine ⟨hstep, fun m rest hr => ?_, fun i n hr hh hd => ?_, fun code op hr hh hd => ?_, fun hr hh hd => ?_,
    fun hr hh => ?_⟩ <;> rw [hstep]
  · rw [controllerStep_of_run (s := { s with turns := turns }) hr]
  · rw [controllerStep_of_decode_ok (s := { s with turns := turns }) hr hh hd]
    rfl
  · rw [controllerStep_of_decode_error (s := { s with turns := turns }) hr hh hd]
    rfl
  · rw [controllerStep_of_needMore (s := { s with turns := turns }) hr hh hd]
  · rw [controllerStep_of_halted (s := { s with turns := turns }) hr hh]

/-- Settles O10: each turn of the host is its operation, from the state with the turn removed. -/
theorem hostTurnsPushAndPop : Obligations.HostTurnsPushAndPop := by
  unfold Obligations.HostTurnsPushAndPop
  refine fun s rest => ⟨fun w ht => step_of_turn ht, fun w ws ht hw => ?_, fun ht hrq => ?_⟩ <;>
    rw [step_of_turn ht, takeTurn]
  · rw [hostPop_of_cons (s := { s with turns := rest }) hw]
  · rw [hostPop_of_nil (s := { s with turns := rest }) hrq]

/-- Settles O9: an empty CQ, as after reset, is one that lacks word 0. -/
theorem stepWaitsForMissingWords : Obligations.StepWaitsForMissingWords := by
  unfold Obligations.StepWaitsForMissingWords
  exact ⟨fun _ => step_of_needMore, fun _ _ _ _ => step_of_needMore ⟨rfl, rfl, rfl⟩ rfl⟩

/-- Settles O1: each value is the one `State.resetWith` is written with. -/
theorem resetStateHasTheSpecValues : Obligations.ResetStateHasTheSpecValues := by
  unfold Obligations.ResetStateHasTheSpecValues
  rintro sc pr dout din s rfl
  exact ⟨by simp [State.resetWith], rfl, rfl⟩

/-- A reset state stands at a command boundary with idle clock lines. -/
theorem clockInvariant_resetWith (sc pr : Addr) (dout din : Byte) : ClockInvariant (State.resetWith sc pr dout din) :=
  clockInvariant_of_boundary rfl ⟨rfl, rfl, rfl⟩

/-- Settles O2. -/
theorem resetMeetsTheInvariants : Obligations.ResetMeetsTheInvariants := by
  unfold Obligations.ResetMeetsTheInvariants
  exact ⟨clockInvariant_resetWith _ _ _ _, rfl, clockInvariant_resetWith⟩

/-! ## A shift without its edge or under clear (10_state.md R22, R24) -/

/-- With SRCLK at 1 already `SET(SRCLK,1)` is no 0-to-1 step, so the chain stays. -/
theorem performAll_shiftOps_of_high {s : State} (h : s.srclk = true) : performAll shiftOps s =
    { s with srclk := false, trace := s.trace ++ eventsOf 0#8 shiftOps } := by
  simp [shiftOps, performAll_cons, perform_set_srclk, emit, eventOf, h]

/-- `shift` is its two micro-operations and its DONE response (R101). -/
theorem exec_shift (s : State) : exec .shift s =
    .next (emit (.resp (doneWord 0x02#8)) (pushResponse (doneWord 0x02#8) (performAll shiftOps s))) :=
  congrArg Host.Outcome.next (runCommand_eq 0x02#8 shiftOps s)

/-- Settles O23: the two levels from which `SET(SRCLK,1)` does not move the chain one stage. -/
theorem shiftNeedsAnEdgeAndClearHigh : Obligations.ShiftNeedsAnEdgeAndClearHigh := by
  unfold Obligations.ShiftNeedsAnEdgeAndClearHigh
  refine ⟨fun s hsrclk => ?_, fun s hsrclk hclrN => ?_⟩
  · rw [exec_shift, performAll_shiftOps_of_high hsrclk]
    simp [emit, pushResponse, answered, shiftOps, eventOf]
  · rw [exec_shift, performAll_shiftOps hsrclk]
    simp [emit, pushResponse, answered, shiftOps, eventOf, shiftedChain, hclrN]

end Sys2Proof.Machine

namespace Sys2Proof.Machine

open Sys2Proof.Safety

/-! ## The canonical form of MEM along the steps (20_memory.md R50, R64) -/

section memoryForm

variable {s t : State}

/-- Of the rows of the controller's table only EXEC can reach MEM. -/
theorem wf_controllerStep (h : Memory.wf s.mem = true) : Memory.wf (controllerStep s).mem = true := by
  rcases controllerStep_cases s with ⟨m, rest, -, he⟩ | ⟨-, -, he⟩ | ⟨-, -, i, n, -, he⟩ |
    ⟨-, -, code, op, -, he⟩ | ⟨-, -, -, he⟩ <;> rw [he]
  · exact wf_perform m (s := { s with run := rest }) h
  · exact h
  · exact h
  · exact h
  · exact h

@[simp] theorem hostPop_mem (s : State) : (hostPop s).mem = s.mem := by
  unfold hostPop
  split <;> rfl

/-- No turn but the controller's touches MEM; the external reset keeps the chip (log 17). -/
theorem wf_takeTurn (h : Memory.wf s.mem = true) (turn : Turn) : Memory.wf (takeTurn turn s).mem = true := by
  cases turn with
  | push w => exact h
  | pop => rwa [takeTurn, hostPop_mem]
  | controller => exact wf_controllerStep h
  | reset => exact h

/-- A whole command is a list of micro-operations or the error entry. -/
theorem wf_exec {i : Instr} (h : Memory.wf s.mem = true) (he : exec i s = .next t) : Memory.wf t.mem = true := by
  rcases exec_uniform i with hi | hi <;> cases (hi s).symm.trans he
  · exact wf_performAll _ h
  · exact h

end memoryForm

/-- Settles O57: the form is kept by each row of the step table. -/
theorem everyStepKeepsTheMemoryForm : Obligations.EveryStepKeepsTheMemoryForm := by
  unfold Obligations.EveryStepKeepsTheMemoryForm
  intro s t h hst
  rcases step_cases hst with ⟨turn, rest, -, rfl⟩ | ⟨-, m, rest, -, rfl⟩ | ⟨-, -, -, i, n, -, he⟩ |
    ⟨-, -, -, code, op, -, rfl⟩ | ⟨-, -, -, -, rfl⟩
  · exact wf_takeTurn (s := { s with turns := rest }) h turn
  · exact wf_perform m (s := { s with run := rest }) h
  · exact wf_exec (s := takeWords n s) h he
  · exact h
  · exact h

end Sys2Proof.Machine

namespace Sys2Proof.Machine

open Sys2Proof.Safety

/-! ## The composite operations from idle (20_memory.md R66, 42_eeprom_read.md R139, 43_eeprom_write.md R152) -/

/-- A composite command is a run of `read_byte`s, or one `write_bytes` of pairs with waits after it. -/
theorem expand_of_composite (c : Config) {i : Instr} (hi : Composite i) :
    (∃ as : List Addr, expand c i = as.flatMap (readByteOps c)) ∨
    (∃ (ps : List (Addr × Byte)) (waits : List Nat), expand c i = writePairsOps c ps ++ waits.map .wait) := by
  cases i with
  | readByte addr => exact .inl ⟨[addr], by rw [List.flatMap_singleton, expand_readByte]⟩
  | readPage page pageSize => exact .inl ⟨_, expand_readPage c page pageSize⟩
  | writeBytes addresses data =>
    exact .inr ⟨addresses.zip data, [], by rw [List.map_nil, List.append_nil, expand_writeBytes]⟩
  | enableProtection => exact .inr ⟨_, [c.tCmdSettle], expand_enableProtection c⟩
  | disableProtection => exact .inr ⟨_, [c.tCmdSettle], expand_disableProtection c⟩
  | eraseChip => exact .inr ⟨_, [c.tCmdSettle], expand_eraseChip c⟩
  | _ => exact hi.elim

/-- There is no contention at any point of the list. -/
def NeverContends (ms : List Micro) (s : State) : Prop := ∀ k, contention (performAll (ms.take k) s) = false

theorem neverContends_nil {s : State} (h : contention s = false) : NeverContends [] s := by
  intro k
  rwa [List.take_nil]

theorem NeverContends.cons {m : Micro} {ms : List Micro} {s : State} (hs : contention s = false)
    (h : NeverContends ms (perform m s)) : NeverContends (m :: ms) s := by
  intro k
  cases k with
  | zero => exact hs
  | succ k => exact h k

theorem NeverContends.append {ms ns : List Micro} {s : State} (hm : NeverContends ms s)
    (hn : NeverContends ns (performAll ms s)) : NeverContends (ms ++ ns) s := by
  intro k
  rw [List.take_append, performAll_append]
  rcases Nat.le_total k ms.length with hk | hk
  · rw [Nat.sub_eq_zero_of_le hk]
    exact hm k
  · rw [List.take_of_length_le hk]
    exact hn _

/-- A condition that excludes contention and that each micro-operation keeps excludes it along the list. -/
theorem neverContends_of_kept {P : State → Prop} (hP : ∀ s, P s → contention s = false) {ms : List Micro}
    (hkept : ∀ m ∈ ms, ∀ s, P s → P (perform m s)) {s : State} (hs : P s) : NeverContends ms s := by
  induction ms generalizing s with
  | nil => exact neverContends_nil (hP s hs)
  | cons m ms ih =>
    exact .cons (hP s hs) (ih (fun x hx => hkept x (List.mem_cons_of_mem m hx)) (hkept m List.mem_cons_self s hs))

theorem contention_of_input {s : State} (h : s.dir = .input) : contention s = false := by simp [contention, h]

theorem contention_of_ceN {s : State} (h : s.ceN = true) : contention s = false := by simp [contention, h]

theorem contention_of_oeN {s : State} (h : s.oeN = true) : contention s = false := by simp [contention, h]

/-- Only `DIR(OUT)` turns the data lines to output (R30). -/
theorem perform_keeps_input {m : Micro} (hm : m ≠ .dir .output) {s : State} (hs : s.dir = .input) :
    (perform m s).dir = .input := by
  obtain ⟨-, -, -, -, -, -, -, -, -, -, hdir, -⟩ := eachRegisterHasItsWriters m s
  rw [hdir]
  cases m with
  | dir d => cases d <;> simp_all
  | _ => exact hs

/-- Only `SET(OE_n, 0)` and `SET3(0)` lower OE_n (R29). -/
theorem perform_keeps_oeN {m : Micro} (hset : m ≠ .set .oeN false) (hset3 : m ≠ .set3 false) {s : State}
    (hs : s.oeN = true) : (perform m s).oeN = true := by
  obtain ⟨-, -, -, -, -, -, -, -, hoeN, -⟩ := eachRegisterHasItsWriters m s
  rw [hoeN]
  cases m with
  | set l v => cases l <;> cases v <;> simp_all
  | set3 v => cases v <;> simp_all
  | _ => exact hs

/-- `read_byte` first turns the data lines to input and never turns them back (R139). -/
theorem readByteOps_eq_input_cons (c : Config) (a : Addr) :
    ∃ rest, readByteOps c a = .dir .input :: rest ∧ .dir .output ∉ rest := by
  refine ⟨_, rfl, ?_⟩
  simp [setAddressOps, clearOps, latchOps, set1Ops, sendBitsOps, sendBitOps, shiftOps]

theorem neverContends_reads (c : Config) (as : List Addr) {s : State} (h : contention s = false) :
    NeverContends (as.flatMap (readByteOps c)) s := by
  cases as with
  | nil => exact neverContends_nil h
  | cons a as =>
    obtain ⟨rest, ha, hrest⟩ := readByteOps_eq_input_cons c a
    rw [List.flatMap_cons, ha, List.cons_append]
    refine .cons h (neverContends_of_kept (P := fun s => s.dir = .input) (fun _ => contention_of_input)
      (fun m hm _ => perform_keeps_input ?_) rfl)
    rintro rfl
    rcases List.mem_append.1 hm with hm | hm
    · exact hrest hm
    · obtain ⟨b, -, hb⟩ := List.mem_flatMap.1 hm
      obtain ⟨rest', hb', hrest'⟩ := readByteOps_eq_input_cons c b
      simp [hb', hrest'] at hb

/-- The opening of `write_bytes` leaves OE_n at 1, with CE_n at 1 all the while. -/
theorem neverContends_writeOpeningOps (c : Config) {s : State} (h : s.ceN = true) :
    NeverContends (writeOpeningOps c) s := by
  refine neverContends_of_kept (P := fun s => s.ceN = true) (fun _ => contention_of_ceN) (fun m hm t ht => ?_) h
  simp only [writeOpeningOps, ioOutputOps, List.mem_append, List.mem_cons, List.not_mem_nil, or_false] at hm
  rcases hm with rfl | rfl | rfl | rfl
  · exact ht
  · rwa [perform_set_oeN]
  · exact ht
  · rwa [perform_set_oeN]

theorem performAll_writeOpeningOps_oeN (c : Config) (s : State) : (performAll (writeOpeningOps c) s).oeN = true := by
  simp [writeOpeningOps, performAll_append, performAll_cons, perform_set_oeN]

/-- After its opening `write_bytes` does not lower OE_n again (R152). -/
theorem writePairs_keep_oeN (c : Config) (ps : List (Addr × Byte)) (waits : List Nat) {m : Micro}
    (hm : m ∈ ps.flatMap (writePairOps c) ++ writeClosingOps c ++ waits.map .wait) :
    m ≠ .set .oeN false ∧ m ≠ .set3 false := by
  constructor <;> rintro rfl <;>
    simp [writePairOps, setAddressOps, clearOps, latchOps, set1Ops, sendBitsOps, sendBitOps, shiftOps,
      writeClosingOps] at hm

theorem neverContends_writes (c : Config) (ps : List (Addr × Byte)) (waits : List Nat) {s : State}
    (h : s.ceN = true) : NeverContends (writePairsOps c ps ++ waits.map .wait) s := by
  rw [writePairsOps, List.append_assoc, List.append_assoc, ← List.append_assoc (List.flatMap _ _)]
  refine .append (neverContends_writeOpeningOps c h) (neverContends_of_kept (P := fun s => s.oeN = true)
    (fun _ => contention_of_oeN) (fun m hm _ => ?_) (performAll_writeOpeningOps_oeN c s))
  obtain ⟨hset, hset3⟩ := writePairs_keep_oeN c ps waits hm
  exact perform_keeps_oeN hset hset3

/-- What an operation that is safe from idle leaves (R66, R139, R152): idle again, the outputs on, low clock lines, the
same device, and only well-formed cycles recorded. -/
def EndsSafe (s t : State) : Prop :=
  ∃ cycles, Deselected t ∧ t.srOeN = false ∧ ClocksLow t ∧ t.history = s.history ++ cycles ∧
    cycles.all inDomain = true ∧ t.device = s.device

/-- A response and its event touch nothing of this. -/
theorem EndsSafe.respond {s t : State} (h : EndsSafe s t) (w : Word) :
    EndsSafe s (emit (.resp w) (pushResponse w t)) := h

theorem endsSafe_reads (c : Config) (as : List Addr) {s : State} (hd : Deselected s) (ho : s.srOeN = false)
    (hc : ClocksLow s) : EndsSafe s (performAll (as.flatMap (readByteOps c)) s) := by
  have ⟨_, _, hw⟩ := hd
  rw [performAll_reads c as hc hw ho]
  unfold afterReads
  split
  · exact ⟨[], hd, ho, hc, by simp, rfl, rfl⟩
  · exact ⟨_, ⟨rfl, rfl, rfl⟩, by simpa using ho, clocksLow_afterAddresses _ hc, rfl, by simp [inDomain], by simp⟩

theorem performAll_waits (waits : List Nat) (s : State) :
    performAll (waits.map .wait) s = { s with trace := s.trace ++ waits.map .wait } := by
  induction waits generalizing s with
  | nil => simp
  | cons n waits ih => rw [List.map_cons, performAll_cons, ih]; simp [perform_wait, emit]

theorem endsSafe_writes (c : Config) (ps : List (Addr × Byte)) (waits : List Nat) {s : State} (ho : s.srOeN = false)
    (hc : ClocksLow s) : EndsSafe s (performAll (writePairsOps c ps ++ waits.map .wait) s) := by
  rw [performAll_append, performAll_writePairsOps c ps hc ho, performAll_waits]
  exact ⟨_, ⟨rfl, rfl, rfl⟩, by simpa [afterWriteBatch] using ho, clocksLow_afterAddresses _ hc, rfl, by simp [inDomain],
    by simp [afterWriteBatch]⟩

/-- Settles O58: a composite command is a run of reads, with the data lines at input, or one `write_bytes`, with CE_n and
then OE_n at 1. -/
theorem compositeOperationsAreSafeFromIdle : Obligations.CompositeOperationsAreSafeFromIdle := by
  unfold Obligations.CompositeOperationsAreSafeFromIdle
  intro i s hi hwf hd ho hc
  have ⟨hceN, _, _⟩ := hd
  have hsafe : NeverContends (expand parameters i) s ∧ EndsSafe s (performAll (expand parameters i) s) := by
    rcases expand_of_composite parameters hi with ⟨as, he⟩ | ⟨ps, waits, he⟩ <;> rw [he]
    · exact ⟨neverContends_reads _ as (contention_of_ceN hceN), endsSafe_reads _ as hd ho hc⟩
    · exact ⟨neverContends_writes _ ps waits hceN, endsSafe_writes _ ps waits ho hc⟩
  obtain ⟨hnever, hends⟩ := hsafe
  obtain ⟨cycles, hend⟩ := hends.respond (doneWord (opcodeOf i))
  exact ⟨hnever, _, cycles, by rw [exec_of_wellFormed hwf, runCommand_eq], hend⟩

end Sys2Proof.Machine

namespace Sys2Proof.Machine

open Sys2Proof.Safety

/-! ## The address bus during `set_address` (20_memory.md R67, 41_eeprom_line_control.md R124) -/

/-- The output register is loaded by `SET(RCLK, 1)` alone (R27). -/
theorem performAll_pr_of_no_latch {ms : List Micro} (h : .set .rclk true ∉ ms) (s : State) :
    (performAll ms s).pr = s.pr := by
  induction ms generalizing s with
  | nil => rfl
  | cons m ms ih =>
    obtain ⟨-, -, -, -, -, -, hpr, -⟩ := eachRegisterHasItsWriters m s
    have hm : m ≠ .set .rclk true := fun hm => h (hm ▸ List.mem_cons_self)
    rw [performAll_cons, ih (fun hms => h (List.mem_cons_of_mem m hms)), hpr, if_neg (fun hl => hm hl.1)]

/-- What `set_address` does before its latch: the clear and the 24 shifts. -/
def addressShiftOps (a : Addr) : List Micro := clearOps ++ sendBitsOps (addressBits a)

theorem setAddressOps_eq_shift_latch (a : Addr) : setAddressOps a = addressShiftOps a ++ latchOps := rfl

theorem addressShiftOps_length (a : Addr) : (addressShiftOps a).length = 74 := by
  simp [addressShiftOps, clearOps, sendBitsOps_length, addressBits]

theorem no_latch_in_addressShiftOps (a : Addr) : .set .rclk true ∉ addressShiftOps a := by
  simp [addressShiftOps, clearOps, sendBitsOps, sendBitOps, shiftOps]

/-- After the clear and the shifts the chain holds the address, and RCLK is still low (R125). -/
theorem performAll_addressShiftOps (a : Addr) {s : State} (h : ClocksLow s) :
    (performAll (addressShiftOps a) s).sc = a ∧ (performAll (addressShiftOps a) s).rclk = false := by
  obtain ⟨hsrclk, hrclk⟩ := h
  rw [addressShiftOps, performAll_append, performAll_clearOps, performAll_sendBitsOps _ (by exact hsrclk) rfl]
  exact ⟨foldl_shiftIn_addressBits a _, hrclk⟩

/-- Settles O37: the one micro-operation that loads PR is the first of the latch, the 75th. -/
theorem addressBusChangesOnceInSetAddress : Obligations.AddressBusChangesOnceInSetAddress := by
  unfold Obligations.AddressBusChangesOnceInSetAddress
  intro a s hc
  rw [expand_setAddress, setAddressOps_eq_shift_latch]
  refine ⟨fun k hk => ?_, fun k hk => ?_⟩
  · rw [List.take_append_of_le_length (by rw [addressShiftOps_length]; exact hk)]
    exact performAll_pr_of_no_latch (fun hm => no_latch_in_addressShiftOps a (List.mem_of_mem_take hm)) s
  · obtain ⟨j, rfl⟩ := Nat.exists_eq_add_of_le hk
    obtain ⟨hsc, hrclk⟩ := performAll_addressShiftOps a hc
    have htake : (addressShiftOps a ++ latchOps).take (75 + j) =
        addressShiftOps a ++ .set .rclk true :: [.set .rclk false].take j := by
      rw [show 75 + j = (addressShiftOps a).length + (j + 1) by rw [addressShiftOps_length]; omega,
        List.take_length_add_append]
      rfl
    have hrest : .set .rclk true ∉ [Micro.set .rclk false].take j := fun hm => by
      simpa using List.mem_of_mem_take hm
    rw [htake, performAll_append, performAll_cons, performAll_pr_of_no_latch hrest, perform_set_rclk]
    simp [hsc, hrclk]

end Sys2Proof.Machine

namespace Sys2Proof.Machine

open Sys2Proof.Safety

/-! ## read_byte (42_eeprom_read.md R135, R136, 20_memory.md R51) -/

/-- A command whose list appends DATA responses and events to a state ends with its DONE response and event after them. -/
theorem exec_eq_answered {i : Instr} {s u : State} {data : List Byte} {events : List Event}
    (hexec : exec i s = .next (runCommand (opcodeOf i) (expand parameters i) s))
    (hlist : performAll (expand parameters i) s =
      { u with rq := u.rq ++ data.map dataWord, trace := u.trace ++ events }) :
    exec i s = .next (answered (opcodeOf i) data events u) := by
  rw [hexec, runCommand_eq, hlist]
  rfl

/-- The bits of an address are sent from bit 23 down to bit 0 (R124). -/
theorem addressBits_eq_reverse (a : Addr) : addressBits a = (List.range 24).reverse.map a.getLsbD := rfl

theorem eventsOf_flatMap {α : Type} (v : Byte) (f : α → List Micro) (xs : List α) :
    eventsOf v (xs.flatMap f) = xs.flatMap (fun x => eventsOf v (f x)) := List.map_flatMap

/-- The events of the 24 `send_bit`s of an address (R136). -/
theorem eventsOf_sendBitsOps_addressBits (v : Byte) (a : Addr) : eventsOf v (sendBitsOps (addressBits a)) =
    (List.range 24).reverse.flatMap (fun i => [.set .ser (a.getLsbD i), .set .srclk true, .set .srclk false]) := by
  rw [addressBits_eq_reverse, sendBitsOps, eventsOf_flatMap, List.flatMap_map]
  rfl

/-- A well-formed `read_byte` with its DONE response. -/
theorem exec_readByte (a : Addr) {s : State} (hc : ClocksLow s) (hw : s.weN = true) (ho : s.srOeN = false) :
    exec (.readByte a) s = .next
      (answered 0x15#8 [readAnswer s a 0] (eventsOf (readAnswer s a 0) (expand parameters (.readByte a)))
        { s with
          ser := a.getLsbD 0, srclk := false, rclk := false, clrN := true, sc := a, pr := a
          ceN := true, oeN := true, weN := true, dir := .input
          din := readAnswer s a 0
          history := s.history ++ [.read a (readAnswer s a 0)]
          draws := s.draws + 1 }) :=
  exec_eq_answered (i := .readByte a) rfl (performAll_readByteOps parameters a hc hw ho)

/-- Settles O38: the list and its events unfold to those of the rules, and the read is `exec_readByte`. -/
theorem readByteReadsItsAddress : Obligations.ReadByteReadsItsAddress := by
  unfold Obligations.ReadByteReadsItsAddress
  refine ⟨fun a => ?_, fun a v => ?_, fun a s hc hw ho => exec_readByte a hc hw ho⟩
  · rw [expand_readByte, expand_setAddress, readByteOps]
    simp [ioInputOps, set1Ops, parameters]
  · rw [expand_readByte, readByteOps, setAddressOps]
    simp [eventsOf_sendBitsOps_addressBits, ioInputOps, clearOps, latchOps, set1Ops, eventOf, parameters, dataWord]

/-- With WE_n = 0 and the data lines at input, the fall of CE_n is an ill-formed strobe (R52). -/
theorem perform_set_ceN_low_strobes_illFormed {s : State} (hc : s.ceN = true) (hw : s.weN = false)
    (hd : s.dir = .input) :
    perform (.set .ceN false) s = emit (.set .ceN false) (nextDraw (leaveDomain (recordCycle
      (.illFormedStrobe (Config.freeAddress s.draws) (Config.freeByte s.draws)) { s with ceN := false }))) := by
  simp [perform, setLine, strobeIfNew, strobeLevels, presentStrobe, strobeWellFormed, hc, hw, hd]

theorem eventsOf_setAddressOps (v : Byte) (a : Addr) : eventsOf 0#8 (setAddressOps a) = eventsOf v (setAddressOps a) := by
  simp [setAddressOps, eventsOf_sendBitsOps_addressBits, clearOps, latchOps, eventOf]

/-- A `read_byte` from CE_n = 1 and WE_n = 0 (R51, R52): the fall of CE_n is an ill-formed strobe, and the sample a bare
draw. -/
theorem performAll_readByteOps_strobes (c : Config) (a : Addr) {s : State} (h : ClocksLow s) (hc : s.ceN = true)
    (hw : s.weN = false) :
    performAll (readByteOps c a) s =
      { s with
        ser := a.getLsbD 0, srclk := false, rclk := false, clrN := true, sc := a, pr := a
        ceN := true, oeN := true, weN := true, dir := .input
        din := Config.freeByte (s.draws + 1)
        rq := s.rq ++ [dataWord (Config.freeByte (s.draws + 1))]
        history := s.history ++
          [.illFormedStrobe (Config.freeAddress s.draws) (Config.freeByte s.draws),
            .illFormedRead (Config.freeByte (s.draws + 1))]
        draws := s.draws + 2
        device := if s.device = .ideal then .outside else s.device
        trace := s.trace ++ eventsOf (Config.freeByte (s.draws + 1)) (readByteOps c a) } := by
  simp only [readByteOps, ioInputOps, set1Ops, performAll_append, performAll_cons, performAll_nil, perform_dir]
  rw [performAll_setAddressOps a (by exact h.1) (by exact h.2),
    eventsOf_setAddressOps (Config.freeByte (s.draws + 1)),
    perform_set_ceN_low_strobes_illFormed (by exact hc) (by exact hw) (by rfl)]
  simp only [perform_set_oeN, perform_wait, perform_sample, perform_set3_high, perform_respData]
  simp [emit, pushResponse, takeSample, sampledByte, readWellFormed, hw, sampleDomain, leaveDomain, recordCycle,
    nextDraw, sampleCycle, eventOf]
  cases s.device <;> rfl

/-- Settles O39: the read cycle is ill-formed with WE_n = 0 or the outputs off, and so is the strobe of the second form. -/
theorem readByteIllFormedReturnsAFreeByte : Obligations.ReadByteIllFormedReturnsAFreeByte := by
  unfold Obligations.ReadByteIllFormedReturnsAFreeByte
  refine ⟨fun a s hc hill => ?_, fun a s hc hceN hweN => ?_⟩
  · rw [← leaveDomain_device]
    exact exec_eq_answered (i := .readByte a) rfl (performAll_readByteOps_illFormed parameters a hc hill)
  · exact exec_eq_answered (i := .readByte a) rfl (performAll_readByteOps_strobes parameters a hc hceN hweN)

end Sys2Proof.Machine

namespace Sys2Proof.Machine

open Sys2Proof.Safety

/-! ## write_bytes and the memory of the ideal device (43_eeprom_write.md R150, 20_memory.md R52, R64) -/

@[simp] theorem afterWriteBatch_rq (ps : List (Addr × Byte)) (s : State) : (afterWriteBatch ps s).rq = s.rq := by
  simp [afterWriteBatch]

@[simp] theorem afterWriteBatch_trace (ps : List (Addr × Byte)) (s : State) :
    (afterWriteBatch ps s).trace = s.trace := by
  simp [afterWriteBatch]

@[simp] theorem afterWriteBatch_srOeN (ps : List (Addr × Byte)) (s : State) :
    (afterWriteBatch ps s).srOeN = s.srOeN := by
  simp [afterWriteBatch]

@[simp] theorem afterWriteBatch_device (ps : List (Addr × Byte)) (s : State) :
    (afterWriteBatch ps s).device = s.device := by
  simp [afterWriteBatch]

theorem clocksLow_afterWriteBatch (ps : List (Addr × Byte)) {s : State} (h : ClocksLow s) :
    ClocksLow (afterWriteBatch ps s) :=
  clocksLow_afterAddresses _ h

/-- `write_bytes` with the outputs on and its DONE response. -/
theorem exec_writeBytes (addresses : List Addr) (data : List Byte) {s : State} (hc : ClocksLow s)
    (ho : s.srOeN = false) : exec (.writeBytes addresses data) s = .next
      (answered 0x17#8 [] (eventsOf 0#8 (expand parameters (.writeBytes addresses data)))
        (afterWriteBatch (addresses.zip data) s)) := by
  refine exec_eq_answered (i := .writeBytes addresses data) rfl ?_
  rw [expand_writeBytes, performAll_writePairsOps parameters _ hc ho]
  simp

/-- Settles O43: with the outputs off no strobe of the batch is well-formed. -/
theorem writeBytesWithOutputsOffIsIllFormed : Obligations.WriteBytesWithOutputsOffIsIllFormed := by
  unfold Obligations.WriteBytesWithOutputsOffIsIllFormed
  intro addresses data s hc ho
  refine exec_eq_answered (i := .writeBytes addresses data) rfl ?_
  rw [expand_writeBytes, performAll_writePairsOps_off parameters _ hc ho]
  by_cases hps : addresses.zip data = [] <;> simp [hps, leaveDomain_device]

/-- An address that no pair has reads as before. -/
theorem memoryRead_afterWrites_other {ps : List (Addr × Byte)} {n : Nat} (h : ∀ p ∈ ps, p.1.toNat ≠ n) (m : Memory) :
    memoryRead (afterWrites ps m) n = memoryRead m n := by
  induction ps generalizing m with
  | nil => rfl
  | cons p ps ih =>
    have hps : ∀ q ∈ ps, q.1.toNat ≠ n := fun q hq => h q (List.mem_cons_of_mem p hq)
    calc memoryRead (afterWrites ps (memoryWrite m p.1.toNat p.2)) n
        = memoryRead (memoryWrite m p.1.toNat p.2) n := ih hps _
      _ = memoryRead m n := memoryRead_write_other m p.2 (h p List.mem_cons_self).symm

theorem wf_afterWrites (ps : List (Addr × Byte)) {m : Memory} (h : Memory.wf m = true) :
    Memory.wf (afterWrites ps m) = true := by
  induction ps generalizing m with
  | nil => exact h
  | cons p ps ih => exact ih (wf_memoryWrite h p.1 p.2)

/-- The last pair of an address wins. -/
theorem memoryRead_afterWrites_last (before : List (Addr × Byte)) {a : Addr} {b : Byte} {after : List (Addr × Byte)}
    (hafter : ∀ p ∈ after, p.1 ≠ a) {m : Memory} (hm : Memory.wf m = true) :
    memoryRead (afterWrites (before ++ (a, b) :: after) m) a.toNat = b := by
  have hsplit : afterWrites (before ++ (a, b) :: after) m =
      afterWrites after (memoryWrite (afterWrites before m) a.toNat b) := List.foldl_append
  rw [hsplit, memoryRead_afterWrites_other fun p hp he => hafter p hp (BitVec.eq_of_toNat_eq he)]
  exact memoryRead_write_same (wf_afterWrites before hm) a.toNat b

/-- The ideal device stores the pairs (R64). -/
theorem afterWriteBatch_mem_of_ideal (ps : List (Addr × Byte)) {s : State} (h : s.device = .ideal) :
    (afterWriteBatch ps s).mem = afterWrites ps s.mem := by
  simp [afterWriteBatch, storedBy, h]

/-- Settles O45: MEM ends as the writes of the pairs, in order. -/
theorem writeBytesStoresItsPairsOnly : Obligations.WriteBytesStoresItsPairsOnly := by
  unfold Obligations.WriteBytesStoresItsPairsOnly
  intro addresses data s hc ho hd hm
  refine ⟨_, exec_writeBytes addresses data hc ho, (afterWriteBatch_device _ s).trans hd,
    fun before a b after hzip hafter => ?_, fun n hn => ?_⟩ <;>
    rw [answered, afterWriteBatch_mem_of_ideal _ hd]
  · rw [hzip]
    exact memoryRead_afterWrites_last before hafter hm
  · exact memoryRead_afterWrites_other hn s.mem

theorem readAnswer_of_ideal {s : State} (h : s.device = .ideal) (a : Addr) (k : Nat) :
    readAnswer s a k = memoryRead s.mem a.toNat := by
  simp [readAnswer, h]

theorem execAll_pair {i j : Instr} {s t u : State} (hi : exec i s = .next t) (hj : exec j t = .next u) :
    execAll [i, j] s = .next u := by
  simp [execAll, hi, hj]

/-- Settles O46: the read follows the write from the state the write leaves. -/
theorem idealDeviceReadsBackWhatWasWritten : Obligations.IdealDeviceReadsBackWhatWasWritten := by
  unfold Obligations.IdealDeviceReadsBackWhatWasWritten
  intro a b s hc ho hd hm
  obtain ⟨t, ht, hclocks, hweN, hsrOeN, hanswer, hrq⟩ : ∃ t, exec (.writeBytes [a] [b]) s = .next t ∧ ClocksLow t ∧
      t.weN = true ∧ t.srOeN = false ∧ readAnswer t a 0 = b ∧ t.rq = s.rq ++ [0x80000017#32] := by
    refine ⟨_, exec_writeBytes [a] [b] hc ho, clocksLow_afterWriteBatch _ hc, rfl, (afterWriteBatch_srOeN _ s).trans ho,
      ?_, ?_⟩
    · rw [readAnswer_of_ideal (by exact (afterWriteBatch_device _ s).trans hd), answered,
        afterWriteBatch_mem_of_ideal _ hd]
      exact memoryRead_afterWrites_last [] (by simp) hm
    · simp [answered, doneWord]
  refine ⟨_, execAll_pair ht (exec_readByte a hclocks hweN hsrOeN), hanswer, ?_⟩
  simp [answered, hrq, hanswer, doneWord, dataWord]

end Sys2Proof.Machine

namespace Sys2Proof.Machine

open Sys2Proof.Safety

/-! ## Write strobes (20_memory.md R52) -/

theorem strobeWellFormed_iff (s : State) :
    strobeWellFormed s = true ↔ s.dir = .output ∧ s.oeN = true ∧ s.srOeN = false := by
  simp [strobeWellFormed, and_assoc]

/-- What a strobe presents (R52, log 6). -/
theorem presentStrobe_history (s : State) : (presentStrobe s).history = s.history ++
    [if s.dir = .output ∧ s.oeN = true ∧ s.srOeN = false then .strobe s.pr s.dout
      else .illFormedStrobe (Config.freeAddress s.draws) (Config.freeByte s.draws)] := by
  simp only [presentStrobe, ← strobeWellFormed_iff]
  split <;> simp

theorem strobeIfNew_of_new {before after : State} (h : (strobeLevels after && !strobeLevels before) = true) :
    strobeIfNew before after = presentStrobe after := by
  rw [strobeIfNew, if_pos h]

theorem strobeIfNew_of_not_new {before after : State} (h : (strobeLevels after && !strobeLevels before) = false) :
    strobeIfNew before after = after := by
  rw [strobeIfNew, if_neg (by rw [h]; exact Bool.false_ne_true)]

/-- Every micro-operation but SAMPLE writes its registers, leaves the recorded cycles, MEM and the free values alone, and
then makes the strobe if there is one (R52). -/
theorem perform_eq_strobeIfNew {m : Micro} (hm : m ≠ .sample) (s : State) : ∃ after event,
    perform m s = emit event (strobeIfNew s after) ∧ after.history = s.history ∧ after.mem = s.mem ∧
      after.draws = s.draws := by
  have quiet (after : State) (event : Event) (hc : after.ceN = s.ceN) (hw : after.weN = s.weN) :
      emit event after = emit event (strobeIfNew s after) := by rw [strobeIfNew_of_same_levels hc hw]
  cases m with
  | set l v => exact ⟨setLine l v s, _, rfl, by cases l <;> rfl, by cases l <;> rfl, by cases l <;> rfl⟩
  | set3 v => exact ⟨setThree v s, _, rfl, rfl, rfl, rfl⟩
  | dir d => exact ⟨_, _, quiet { s with dir := d } _ rfl rfl, rfl, rfl, rfl⟩
  | data b => exact ⟨_, _, quiet { s with dout := b } _ rfl rfl, rfl, rfl, rfl⟩
  | wait n => exact ⟨_, _, quiet s _ rfl rfl, rfl, rfl, rfl⟩
  | sample => exact absurd rfl hm
  | respData => exact ⟨_, _, quiet (pushResponse (dataWord s.din) s) _ rfl rfl, rfl, rfl, rfl⟩
  | resp w => exact ⟨_, _, quiet (pushResponse w s) _ rfl rfl, rfl, rfl, rfl⟩

/-- Settles O54: the strobe comes last, so it sees the levels the micro-operation has written. -/
theorem strobeHappensAtTheStepThatLowersBothLines : Obligations.StrobeHappensAtTheStepThatLowersBothLines := by
  unfold Obligations.StrobeHappensAtTheStepThatLowersBothLines
  rintro m s t hm rfl
  obtain ⟨after, event, hp, hhistory, hmem, hdraws⟩ := perform_eq_strobeIfNew hm s
  obtain ⟨-, -, -, hsrOeN, -, hpr, hceN, hoeN, hweN, hdir, hdout, -⟩ := strobeIfNew_registers s after
  have hlevels : strobeLevels (perform m s) = strobeLevels after := by
    rw [hp, strobeLevels, strobeLevels, emit_ceN, emit_weN, hceN, hweN]
  rw [hlevels]
  refine ⟨fun hstrobe => ?_, fun hnone => ?_⟩
  · have hpresent : strobeIfNew s after = presentStrobe after := strobeIfNew_of_new (by simpa using hstrobe)
    simp only [hp, emit_history, emit_dir, emit_oeN, emit_srOeN, emit_pr, emit_dout, hdir, hoeN, hsrOeN, hpr, hdout]
    rw [hpresent, presentStrobe_history, hhistory, hdraws]
  · have hsame : strobeIfNew s after = after := strobeIfNew_of_not_new (by simpa using hnone)
    rw [hp, emit_history, emit_mem, hsame]
    exact ⟨hhistory, hmem⟩

end Sys2Proof.Machine

namespace Sys2Proof.Machine

open Sys2Proof.Safety

/-! ## The ideal device and the judge of the history (20_memory.md R64) -/

/-- A micro-operation only appends to the history. -/
theorem perform_history_append (m : Micro) (s : State) : ∃ cycles, (perform m s).history = s.history ++ cycles := by
  rcases perform_cycle m s with ⟨h, -⟩ | ⟨a, v, h, -⟩ | ⟨a, v, h, -⟩ | ⟨c, -, h, -⟩
  · exact ⟨[], by rw [h, List.append_nil]⟩
  · exact ⟨_, h⟩
  · exact ⟨_, h⟩
  · exact ⟨_, h⟩

theorem performAll_history_append (ms : List Micro) (s : State) :
    ∃ cycles, (performAll ms s).history = s.history ++ cycles := by
  induction ms generalizing s with
  | nil => exact ⟨[], (List.append_nil _).symm⟩
  | cons m ms ih =>
    obtain ⟨now, hnow⟩ := perform_history_append m s
    obtain ⟨later, hlater⟩ := ih (perform m s)
    exact ⟨now ++ later, by rw [performAll_cons, hlater, hnow, List.append_assoc]⟩

theorem leaveDomain_device_ne_ideal (s : State) : (leaveDomain s).device ≠ .ideal := by
  rw [leaveDomain_device]
  split
  · decide
  · assumption

/-- A run that is not one of the ideal device does not become one (R64). -/
theorem performAll_device_ne_ideal (ms : List Micro) {s : State} (h : s.device ≠ .ideal) :
    (performAll ms s).device ≠ .ideal := by
  induction ms generalizing s with
  | nil => exact h
  | cons m ms ih =>
    refine ih ?_
    rcases perform_cycle m s with ⟨-, hd, -⟩ | ⟨-, -, -, hd, -⟩ | ⟨-, -, -, hd, -⟩ | ⟨-, -, -, hd, -⟩ <;> rw [hd]
    · exact h
    · exact h
    · exact h
    · exact leaveDomain_device_ne_ideal s

/-- Settles O59, by induction on the list: a cycle of the domain is judged as the device has answered it, and a cycle outside
it ends the run with the ideal device for good. -/
theorem idealDeviceAgreesWithItsHistory : Obligations.IdealDeviceAgreesWithItsHistory := by
  unfold Obligations.IdealDeviceAgreesWithItsHistory
  rintro ms s t hs rfl
  induction ms generalizing s with
  | nil => exact ⟨[], by simp [hs, judge]⟩
  | cons m ms ih =>
    rw [performAll_cons]
    rcases perform_cycle m s with ⟨hh, hd, hm⟩ | ⟨a, v, hh, hd, hm, hv⟩ | ⟨a, v, hh, hd, hm⟩ | ⟨c, hc, hh, hd, -⟩
    · obtain ⟨cycles, hhist, hdev, hjudge⟩ := ih (perform m s) (hd.trans hs)
      rw [hh] at hhist
      rw [hm] at hjudge
      exact ⟨cycles, hhist, hdev, hjudge⟩
    · obtain ⟨cycles, hhist, hdev, hjudge⟩ := ih (perform m s) (hd.trans hs)
      refine ⟨.read a v :: cycles, by simp [hhist, hh], hdev, fun ht => ?_⟩
      rw [judge, if_pos (hv hs).symm, ← hm, hjudge ht]
    · obtain ⟨cycles, hhist, hdev, hjudge⟩ := ih (perform m s) (hd.trans hs)
      refine ⟨.strobe a v :: cycles, by simp [hhist, hh], hdev, fun ht => ?_⟩
      rw [judge, ← hm hs, hjudge ht]
    · obtain ⟨cycles, hhist⟩ := performAll_history_append ms (perform m s)
      have hne : (performAll ms (perform m s)).device ≠ .ideal :=
        performAll_device_ne_ideal ms (hd ▸ leaveDomain_device_ne_ideal s)
      exact ⟨c :: cycles, by simp [hhist, hh], by simp [hne, hc],
        fun ht => absurd ht hne⟩

/-- The state with the ideal device and its MEM at the chip's place. -/
def withIdeal (mem : Memory) (s : State) : State := { s with device := .ideal, mem := mem }

/-- A strobe the judge accepts is the ideal device's (R52, R64). -/
theorem presentStrobe_withIdeal {s : State} {mem mem' : Memory} {cycles : List BusCycle}
    (hh : (presentStrobe s).history = s.history ++ cycles) (hj : judge mem cycles = some mem') :
    presentStrobe (withIdeal mem s) = withIdeal mem' (presentStrobe s) := by
  have hideal : strobeWellFormed (withIdeal mem s) = strobeWellFormed s := rfl
  rw [presentStrobe_history] at hh
  cases List.append_cancel_left hh
  cases hw : strobeWellFormed s with
  | true =>
    rw [if_pos ((strobeWellFormed_iff s).1 hw)] at hj
    cases hj
    rw [presentStrobe, presentStrobe, hideal, hw]
    rfl
  | false =>
    rw [if_neg (fun h => by simp [(strobeWellFormed_iff s).2 h] at hw)] at hj
    cases hj

theorem strobeIfNew_withIdeal {before after : State} {mem mem' : Memory} {cycles : List BusCycle}
    (hh : (strobeIfNew before after).history = after.history ++ cycles) (hj : judge mem cycles = some mem') :
    strobeIfNew (withIdeal mem before) (withIdeal mem after) = withIdeal mem' (strobeIfNew before after) := by
  cases hnew : strobeLevels after && !strobeLevels before with
  | true =>
    rw [strobeIfNew_of_new hnew] at hh ⊢
    rw [strobeIfNew_of_new (by exact hnew)]
    exact presentStrobe_withIdeal hh hj
  | false =>
    rw [strobeIfNew_of_not_new hnew] at hh ⊢
    rw [strobeIfNew_of_not_new (by exact hnew)]
    cases List.self_eq_append_right.1 hh
    cases hj
    rfl

/-- A sample the judge accepts has read what the ideal device answers (R51, R64). -/
theorem takeSample_withIdeal {s : State} {mem mem' : Memory} {cycles : List BusCycle}
    (hh : (takeSample s).history = s.history ++ cycles) (hj : judge mem cycles = some mem') :
    sampledByte (withIdeal mem s) = sampledByte s ∧ takeSample (withIdeal mem s) = withIdeal mem' (takeSample s) := by
  have hideal : readWellFormed (withIdeal mem s) = readWellFormed s := rfl
  have hcycle : cycles = [sampleCycle s] := by
    refine List.append_cancel_left (hh.symm.trans ?_)
    rcases sampleDomain_cases s with ⟨-, h⟩ | ⟨-, h⟩ <;> simp [takeSample, h]
  subst hcycle
  cases hw : readWellFormed s with
  | true =>
    simp only [sampleCycle, hw, if_pos, judge, Option.ite_none_right_eq_some, Option.some.injEq] at hj
    obtain ⟨hread, rfl⟩ := hj
    have hbyte : sampledByte (withIdeal mem s) = sampledByte s := by
      rw [← hread, sampledByte, hideal, if_pos hw]
      rfl
    refine ⟨hbyte, ?_⟩
    simp only [takeSample, sampleCycle, sampleDomain, hbyte, hideal, hw]
    rfl
  | false =>
    simp [sampleCycle, hw, judge] at hj

/-- One micro-operation: if the judge accepts what it records, the ideal device does the same (R51, R52, R64). -/
theorem perform_withIdeal {m : Micro} {s : State} {mem mem' : Memory} {cycles : List BusCycle}
    (hh : (perform m s).history = s.history ++ cycles) (hj : judge mem cycles = some mem') :
    perform m (withIdeal mem s) = withIdeal mem' (perform m s) := by
  have quiet (hq : (perform m s).history = s.history) : mem = mem' := by
    cases List.self_eq_append_right.1 (hq.symm.trans hh)
    exact Option.some.inj hj
  cases m with
  | set l v =>
    have hline : setLine l v (withIdeal mem s) = withIdeal mem (setLine l v s) := by cases l <;> rfl
    have hhist : (setLine l v s).history = s.history := by cases l <;> rfl
    rw [perform, hline, strobeIfNew_withIdeal (by rw [hhist]; exact hh) hj]
    rfl
  | set3 v =>
    have hthree : setThree v (withIdeal mem s) = withIdeal mem (setThree v s) := rfl
    rw [perform, hthree, strobeIfNew_withIdeal (by exact hh) hj]
    rfl
  | sample =>
    obtain ⟨hbyte, htake⟩ := takeSample_withIdeal (by exact hh) hj
    rw [perform_sample, perform_sample, hbyte, htake]
    rfl
  | _ =>
    cases quiet rfl
    rfl

/-- A list of micro-operations whose recorded cycles the judge accepts is the ideal device's run, whatever device has run
it. -/
theorem performAll_withIdeal (ms : List Micro) {s : State} {mem mem' : Memory} {cycles : List BusCycle}
    (hh : (performAll ms s).history = s.history ++ cycles) (hj : judge mem cycles = some mem') :
    performAll ms (withIdeal mem s) = withIdeal mem' (performAll ms s) := by
  induction ms generalizing s mem cycles with
  | nil =>
    cases List.self_eq_append_right.1 hh
    cases hj
    rfl
  | cons m ms ih =>
    obtain ⟨now, hnow⟩ := perform_history_append m s
    obtain ⟨later, hlater⟩ := performAll_history_append ms (perform m s)
    have hcycles : cycles = now ++ later := by
      refine List.append_cancel_left (hh.symm.trans ?_)
      rw [performAll_cons, hlater, hnow, List.append_assoc]
    rw [hcycles, judge_append, Option.bind_eq_some_iff] at hj
    obtain ⟨mid, hmid, hend⟩ := hj
    rw [performAll_cons, performAll_cons, perform_withIdeal hnow hmid, ih hlater hend]

/-- Settles O60. That the device has been the oracle is not needed: what the judge accepts is the ideal device's. -/
theorem generalRunJudgedIdealIsTheIdealRun : Obligations.GeneralRunJudgedIdealIsTheIdealRun := by
  unfold Obligations.GeneralRunJudgedIdealIsTheIdealRun
  rintro ms s t cycles m - rfl hh hj
  exact performAll_withIdeal ms hh hj

end Sys2Proof.Machine

namespace Sys2Proof

/-! ## Words that decode to a command are its encoding (30_encoding.md R71, R72, R75, R79) -/

/-- Where the bits above the low `k` are zero, the low `k` bits carry the whole field. -/
theorem setWidth_extractLsb'_of_high_zero {v k m : Nat} {w : BitVec v} (h : w.extractLsb' k m = 0#m) :
    (w.extractLsb' 0 k).setWidth (k + m) = w.extractLsb' 0 (k + m) := by
  ext j hj
  by_cases hlow : j < k
  · simp [hlow]
  · have hbit : (w.extractLsb' k m).getLsbD (j - k) = false := by simp [h]
    have hm : j - k < m := by omega
    have hk : k + (j - k) = j := by omega
    simpa [hlow, hm, hk] using hbit.symm

/-- A field inside a zero field is zero. -/
theorem extractLsb'_eq_zero_of_wider {v k m len : Nat} {w : BitVec v} (start : Nat) (h : w.extractLsb' k m = 0#m)
    (hlen : start + len ≤ m) : w.extractLsb' (k + start) len = 0#len := by
  ext j hj
  have hbit : (w.extractLsb' k m).getLsbD (start + j) = false := by simp [h]
  have hm : start + j < m := by omega
  simpa [hm, Nat.add_assoc] using hbit

/-- Format B1 (R72): with bits 23:1 zero, bits 23:0 are the operand. -/
theorem lowField_of_bitField {w : Word} (h : w.extractLsb' 1 23 = 0#23) :
    (BitVec.ofBool (bitField w)).setWidth 24 = lowField w := by
  have hbit : BitVec.ofBool (bitField w) = w.extractLsb' 0 1 := by
    ext j hj
    simp [bitField, show j = 0 by omega]
  rw [hbit]
  exact setWidth_extractLsb'_of_high_zero h

/-- Format B8 (R72): with bits 23:8 zero, bits 23:0 are the operand. -/
theorem lowField_of_byteField {w : Word} (h : w.extractLsb' 8 16 = 0#16) : (byteField w).setWidth 24 = lowField w :=
  setWidth_extractLsb'_of_high_zero h

/-- An address word of WB is its operand (R72). -/
theorem packWord_of_addressWordMbz {w : Word} (h : addressWordMbz w = true) : packWord 0#8 (lowField w) = w :=
  packWord_lowField (by simpa [addressWordMbz] using h)

/-- A data word of WB is its operand (R72). -/
theorem packWord_of_dataWordMbz {w : Word} (h : dataWordMbz w = true) :
    packWord 0#8 ((byteField w).setWidth 24) = w := by
  have hzero : w.extractLsb' 8 24 = 0#24 := by simpa [dataWordMbz] using h
  have hlow : w.extractLsb' 8 16 = 0#16 := extractLsb'_eq_zero_of_wider 0 hzero (by decide)
  have hhigh : highField w = 0#8 := extractLsb'_eq_zero_of_wider 16 hzero (by decide)
  rw [lowField_of_byteField hlow, packWord_lowField hhigh]

/-- Encoding what a completed scan has read gives back the words it has taken (R79). -/
theorem map_put_of_scanWords_done {α : Type} {mbz : Word → Bool} {get : Word → α} {put : α → Word}
    (hput : ∀ w, mbz w = true → put (get w) = w) {n : Nat} {ws rest : List Word} {xs : List α}
    (h : scanWords mbz get n ws = .done xs rest) : xs.map put = ws.take n := by
  obtain ⟨-, rfl, -, hmbz, -⟩ := scanWords_done h
  rw [List.map_map]
  exact (List.map_congr_left fun w hw => hput w (hmbz w hw)).trans (List.map_id _)

section formats

variable {w0 : Word} {ws : List Word} {i : Instr} {n : Nat}

theorem encode_of_decodeZ {j : Instr} (hj : encode j = [packWord (opField w0) 0#24]) (h : decodeZ j w0 = .ok i n) :
    encode i = (w0 :: ws).take n := by
  unfold decodeZ at h
  split at h <;> cases h
  next hzero => rw [hj, ← hzero, packWord_fields, List.take_succ_cons, List.take_zero]

theorem encode_of_decodeB1 (hop : opField w0 = 0x06#8) (h : decodeB1 .sendBit w0 = .ok i n) :
    encode i = (w0 :: ws).take n := by
  unfold decodeB1 at h
  split at h <;> cases h
  next hzero =>
    rw [encode, opcodeOf, ← hop, lowField_of_bitField hzero, packWord_fields, List.take_succ_cons, List.take_zero]

theorem encode_of_decodeB8 (hop : opField w0 = 0x07#8) (h : decodeB8 .sendByte w0 = .ok i n) :
    encode i = (w0 :: ws).take n := by
  unfold decodeB8 at h
  split at h <;> cases h
  next hzero =>
    rw [encode, opcodeOf, ← hop, lowField_of_byteField hzero, packWord_fields, List.take_succ_cons, List.take_zero]

theorem encode_of_decodeA24 {mk : Addr → Instr} (hmk : ∀ a, encode (mk a) = [packWord (opField w0) a])
    (h : decodeA24 mk w0 = .ok i n) : encode i = (w0 :: ws).take n := by
  cases h
  rw [hmk, packWord_fields, List.take_succ_cons, List.take_zero]

theorem encode_of_decodePG (hop : opField w0 = 0x16#8) (h : decodePG w0 ws = .ok i n) :
    encode i = (w0 :: ws).take n := by
  cases ws with
  | nil => cases h
  | cons w1 ws =>
    simp only [decodePG] at h
    split at h
    · next hhigh =>
      split at h <;> cases h
      rw [encode, opcodeOf, ← hop, packWord_fields, packWord_lowField hhigh]
      rfl
    · cases h

/-- A verdict Ok of format WB (R77): word 1 is well-formed and the two scans have found all their words. -/
theorem decodeWB_ok_scans (h : decodeWB w0 ws = .ok i n) :
    ∃ w1 body addresses rest data more, ws = w1 :: body ∧ highField w1 = 0#8 ∧
      scanWords addressWordMbz lowField (lowField w0).toNat body = .done addresses rest ∧
      scanWords dataWordMbz byteField (lowField w1).toNat rest = .done data more ∧
      i = .writeBytes addresses data ∧ n = 2 + (lowField w0).toNat + (lowField w1).toNat := by
  cases ws with
  | nil => cases h
  | cons w1 body =>
    simp only [decodeWB] at h
    split at h
    · next hhigh =>
      split at h
      · cases h
      · cases h
      · next addresses rest haddresses =>
        split at h <;> cases h
        next data more hdata =>
          exact ⟨w1, body, addresses, rest, data, more, rfl, hhigh, haddresses, hdata, rfl, rfl⟩
    · cases h

theorem encode_of_decodeWB (hop : opField w0 = 0x17#8) (h : decodeWB w0 ws = .ok i n) :
    encode i = (w0 :: ws).take n := by
  obtain ⟨w1, body, addresses, rest, data, more, rfl, hhigh, haddresses, hdata, rfl, rfl⟩ := decodeWB_ok_scans h
  obtain ⟨-, -, hrest, -, hna⟩ := scanWords_done haddresses
  obtain ⟨-, -, -, -, hnd⟩ := scanWords_done hdata
  have hword0 : packWord 0x17#8 (BitVec.ofNat 24 addresses.length) = w0 := by
    rw [hna, BitVec.ofNat_toNat, BitVec.setWidth_eq, ← hop, packWord_fields]
  have hword1 : packWord 0#8 (BitVec.ofNat 24 data.length) = w1 := by
    rw [hnd, BitVec.ofNat_toNat, BitVec.setWidth_eq, packWord_lowField hhigh]
  have haddressWords : addresses.map (packWord 0#8) = body.take (lowField w0).toNat :=
    map_put_of_scanWords_done (fun _ => packWord_of_addressWordMbz) haddresses
  have hdataWords : data.map (fun d => packWord 0#8 (d.setWidth 24)) = rest.take (lowField w1).toNat :=
    map_put_of_scanWords_done (put := fun d => packWord 0#8 (d.setWidth 24)) (fun _ => packWord_of_dataWordMbz) hdata
  have hlength : 2 + (lowField w0).toNat + (lowField w1).toNat = (lowField w0).toNat + (lowField w1).toNat + 2 := by
    omega
  rw [encode, opcodeOf, hword0, hword1, haddressWords, hdataWords, hrest, ← List.take_add, hlength,
    List.take_succ_cons, List.take_succ_cons]

end formats

/-- Every code of the opcode map is the code of a command (R75). -/
theorem exists_opcodeOf_eq {op : Byte} (h : op ∈ opcodes) : ∃ i, opcodeOf i = op := by
  have hmap : opcodes = [Instr.clear, .shift, .latch, .on, .off, .sendBit false, .sendByte 0, .set1, .set0, .ioOutput,
      .ioInput, .setAddress 0, .readByte 0, .readPage 0 0, .writeBytes [] [], .enableProtection, .disableProtection,
      .eraseChip].map opcodeOf := rfl
  obtain ⟨i, -, hi⟩ := List.mem_map.1 (hmap ▸ h)
  exact ⟨i, hi⟩

/-- A code outside the opcode map is refused whatever follows it (R76). -/
theorem decode_of_not_mem_opcodes {w0 : Word} (h : opField w0 ∉ opcodes) (ws : List Word) :
    decode (w0 :: ws) = .error .illegalOpcode (opField w0) := by
  simp only [decode]
  split
  case h_19 => rfl
  all_goals next hop => exact absurd (hop ▸ by decide) h

/-- The words a verdict Ok has read are the encoding of its command (R77, R79). -/
theorem encode_of_decode {ws : List Word} {i : Instr} {n : Nat} (h : decode ws = .ok i n) : encode i = ws.take n := by
  cases ws with
  | nil => cases h
  | cons w0 ws =>
    by_cases hmem : opField w0 ∈ opcodes
    · obtain ⟨j, hj⟩ := exists_opcodeOf_eq hmem
      cases j <;> simp only [decode, ← hj, opcodeOf] at h
      case sendBit => exact encode_of_decodeB1 hj.symm h
      case sendByte => exact encode_of_decodeB8 hj.symm h
      case setAddress | readByte => exact encode_of_decodeA24 (fun a => by rw [← hj]; rfl) h
      case readPage => exact encode_of_decodePG hj.symm h
      case writeBytes => exact encode_of_decodeWB hj.symm h
      all_goals exact encode_of_decodeZ (by rw [← hj]; rfl) h
    · rw [decode_of_not_mem_opcodes hmem] at h
      cases h

/-- The number of words of an encoding is the length its format gives (R74). -/
theorem encode_length (i : Instr) : (encode i).length = commandLength i := by
  cases i with
  | writeBytes addresses data =>
    obtain ⟨-, -, hlength⟩ := Laws.WordZero.writeBytes addresses data
    exact hlength
  | _ => rfl

/-- Settles O13. -/
theorem decodeOfEncode : Obligations.DecodeOfEncode := by
  unfold Obligations.DecodeOfEncode
  exact fun i rest hi => ⟨decode_encode hi rest, encode_length i⟩

/-- Settles O14: the operation code of word 0 names a format, and each format reads only what encodes to its words. -/
theorem encodeOfDecode : Obligations.EncodeOfDecode := by
  unfold Obligations.EncodeOfDecode
  intro ws i n h
  obtain ⟨hi, hn⟩ := decode_ok h
  exact ⟨hi, hn, encode_of_decode h⟩

/-- Settles O15. -/
theorem decodeVerdictIsStable : Obligations.DecodeVerdictIsStable := by
  unfold Obligations.DecodeVerdictIsStable
  exact fun _ more h => decode_append more h

/-- Settles O16: the words are literals. -/
theorem specWordsDecode : Obligations.SpecWordsDecode := by
  unfold Obligations.SpecWordsDecode
  decide

/-- Settles O17. -/
theorem unknownOpcodesAreIllegal : Obligations.UnknownOpcodesAreIllegal := by
  unfold Obligations.UnknownOpcodesAreIllegal
  exact fun _ ws h => decode_of_not_mem_opcodes h ws

/-- Settles O18: the format of the code checks its must-be-zero field before anything else. -/
theorem reservedFieldsAreRefused : Obligations.ReservedFieldsAreRefused := by
  unfold Obligations.ReservedFieldsAreRefused
  refine ⟨fun w ws hop hlow => ?_, fun w ws hop hbits => ?_, fun w ws hop hbits => ?_, fun w w1 ws hop hhigh => ?_⟩
  · have hZ (i : Instr) : decodeZ i w = .error .reservedNonzero (opField w) := if_neg hlow
    simp only [List.mem_cons, List.not_mem_nil, or_false] at hop
    rcases hop with h | h | h | h | h | h | h | h | h | h | h | h <;> simp only [decode, h, hZ]
  · simp [decode, decodeB1, hop, hbits]
  · simp [decode, decodeB8, hop, hbits]
  · simp only [List.mem_cons, List.not_mem_nil, or_false] at hop
    rcases hop with h | h
    · simp [decode, decodePG, h, hhigh]
    · simp [decode, decodeWB, h, hhigh]

/-- The two well-formed words of a `read_page` have one check left, the range of the page (R77, R138). -/
theorem decode_readPage (page pageSize : BitVec 24) (ws : List Word) :
    decode (packWord 0x16#8 page :: packWord 0#8 pageSize :: ws) =
      if pageInRange page pageSize then .ok (.readPage page pageSize) 2 else .error .addressRange 0x16#8 := by
  simp [decode, decodePG, opField_packWord, highField_packWord, lowField_packWord]

/-- Settles O19. -/
theorem readPageRangeIsChecked : Obligations.ReadPageRangeIsChecked := by
  unfold Obligations.ReadPageRangeIsChecked
  intro page pageSize ws
  have hdecode := decode_readPage page pageSize ws
  simp only [packWord] at hdecode
  by_cases hpage : pageInRange page pageSize
  · rw [hdecode, if_pos hpage]
    exact ⟨iff_of_false (by simp) (by omega), iff_of_true rfl hpage⟩
  · rw [hdecode, if_neg hpage]
    exact ⟨iff_of_true rfl (by omega), iff_of_false (by simp) hpage⟩

end Sys2Proof

namespace Sys2Proof.Machine

open Sys2Proof.Safety

/-! ## The shift-register operations, one by one (40_shift_register.md R100-R106) -/

/-- A command whose list only appends events to a state pushes its DONE response alone. -/
theorem exec_eq_answered_of_silent {i : Instr} {s u : State} {events : List Event}
    (hexec : exec i s = .next (runCommand (opcodeOf i) (expand parameters i) s))
    (hlist : performAll (expand parameters i) s = { u with trace := u.trace ++ events }) :
    exec i s = .next (answered (opcodeOf i) [] events u) :=
  exec_eq_answered hexec (by rw [hlist, List.map_nil, List.append_nil])

theorem exec_clear (s : State) : exec .clear s = .next
    (answered 0x01#8 [] (eventsOf 0#8 clearOps) { s with clrN := true, sc := 0#24 }) :=
  exec_eq_answered_of_silent (i := .clear) rfl (performAll_clearOps s)

/-- R101, R22: from the levels of a command boundary the chain moves one stage. -/
theorem exec_shift_of_idle {s : State} (hsrclk : s.srclk = false) (hclrN : s.clrN = true) : exec .shift s = .next
    (answered 0x02#8 [] (eventsOf 0#8 shiftOps) { s with srclk := false, sc := shiftIn s.sc s.ser }) := by
  refine exec_eq_answered_of_silent (i := .shift) rfl ?_
  have hchain : shiftedChain s = shiftIn s.sc s.ser := if_pos hclrN
  rw [expand, performAll_shiftOps hsrclk, hchain]

theorem exec_latch {s : State} (hrclk : s.rclk = false) : exec .latch s = .next
    (answered 0x03#8 [] (eventsOf 0#8 latchOps) { s with rclk := false, pr := s.sc }) :=
  exec_eq_answered_of_silent (i := .latch) rfl (performAll_latchOps hrclk)

/-- With RCLK at 1 already `SET(RCLK,1)` is no 0-to-1 step, so PR stays (R23). -/
theorem exec_latch_of_high {s : State} (hrclk : s.rclk = true) : exec .latch s = .next
    (answered 0x03#8 [] (eventsOf 0#8 latchOps) { s with rclk := false }) := by
  refine exec_eq_answered_of_silent (i := .latch) rfl ?_
  simp [expand, latchOps, performAll_cons, perform_set_rclk, emit, eventOf, hrclk]

theorem exec_on (s : State) : exec .on s = .next
    (answered 0x04#8 [] (eventsOf 0#8 onOps) { s with srOeN := false }) :=
  exec_eq_answered_of_silent (i := .on) rfl (perform_set_srOeN false s)

theorem exec_off (s : State) : exec .off s = .next
    (answered 0x05#8 [] (eventsOf 0#8 offOps) { s with srOeN := true }) :=
  exec_eq_answered_of_silent (i := .off) rfl (perform_set_srOeN true s)

theorem exec_sendBit (bit : Bool) {s : State} (hsrclk : s.srclk = false) (hclrN : s.clrN = true) :
    exec (.sendBit bit) s = .next (answered 0x06#8 [] (eventsOf 0#8 (sendBitOps bit))
      { s with ser := bit, srclk := false, sc := shiftIn s.sc bit }) :=
  exec_eq_answered_of_silent (i := .sendBit bit) rfl (performAll_sendBitOps bit hsrclk hclrN)

theorem exec_sendByte (value : Byte) {s : State} (h : ClocksIdle s) :
    exec (.sendByte value) s = .next (answered 0x07#8 [] (eventsOf 0#8 (sendByteOps value))
      { s with
        ser := value.getLsbD 7
        sc := (s.sc <<< 8) ||| (rev8 value).setWidth 24
        pr := (s.sc <<< 8) ||| (rev8 value).setWidth 24 }) := by
  refine exec_eq_answered_of_silent (i := .sendByte value) rfl ?_
  have ⟨hsrclk, hrclk, _⟩ := h
  rw [expand_sendByte, performAll_sendByteOps value h, hsrclk, hrclk]

/-- `send_byte` is `send_bit` of bits 0 to 7 and one `latch` (R106). -/
theorem expand_sendByte_eq_sendBits (value : Byte) : expand parameters (.sendByte value) =
    ([0, 1, 2, 3, 4, 5, 6, 7] : List Nat).flatMap (fun i => expand parameters (.sendBit (value.getLsbD i))) ++
      expand parameters .latch := by
  rw [expand_sendByte, sendByteOps, sendBitsOps, byteBits, List.flatMap_map]
  rfl

/-- Settles O28: the list is `expand_sendByte_eq_sendBits` and the end state `exec_sendByte`. -/
theorem sendByteReversesItsByte : Obligations.SendByteReversesItsByte := by
  unfold Obligations.SendByteReversesItsByte
  exact ⟨expand_sendByte_eq_sendBits, fun value _ h => exec_sendByte value h⟩

/-! ## Sequences of shift-register commands (40_shift_register.md R107, 70_reset_and_hazards.md R226) -/

theorem execAll_cons {i : Instr} {is : List Instr} {s t : State} (h : exec i s = .next t) :
    execAll (i :: is) s = execAll is t := by
  simp [execAll, h]

/-- A run of `send_bit` commands folds their bits into the chain and leaves the idle clock lines and PR (R105). -/
theorem execAll_sendBits (bits : List Bool) {s : State} (h : ClocksIdle s) :
    ∃ t, execAll (bits.map .sendBit) s = .next t ∧ ClocksIdle t ∧ t.pr = s.pr ∧ t.sc = bits.foldl shiftIn s.sc := by
  induction bits generalizing s with
  | nil => exact ⟨s, rfl, h, rfl, rfl⟩
  | cons bit bits ih =>
    obtain ⟨hsrclk, hrclk, hclrN⟩ := h
    rw [List.map_cons, execAll_cons (exec_sendBit bit hsrclk hclrN)]
    exact ih ⟨rfl, hrclk, hclrN⟩

/-- Settles O29: the chain is the fold of the bits, which `getLsbD_foldl_shiftIn` reads stage by stage. -/
theorem repeatedSendBitFillsTheChain : Obligations.RepeatedSendBitFillsTheChain := by
  unfold Obligations.RepeatedSendBitFillsTheChain
  intro bits s h
  obtain ⟨t, ht, hclocks, hpr, hsc⟩ := execAll_sendBits bits h
  refine ⟨t, ht, hclocks, hpr, fun j hj hjn hstage => ?_, fun k hk => ?_⟩
  · have hindex : bits.length - 1 - (bits.length - j) = j - 1 := by omega
    rw [hsc, getLsbD_foldl_shiftIn _ _ _ hstage, dif_pos (by omega), ← List.getElem?_eq_getElem, hindex]
  · rw [hsc, getLsbD_foldl_shiftIn _ _ _ hk, dif_neg (by omega), Nat.add_sub_cancel]

/-- `send_byte` moves the chain up by eight stages, loads PR with it and leaves the clock lines idle (R106). -/
theorem exec_sendByte_chain (value : Byte) {s : State} (h : ClocksIdle s) : ∃ t, exec (.sendByte value) s = .next t ∧
    ClocksIdle t ∧ t.sc = (s.sc <<< 8) ||| (rev8 value).setWidth 24 ∧ t.pr = t.sc :=
  ⟨_, exec_sendByte value h, h, rfl, rfl⟩

/-- Three bytes shifted one after the other into an empty chain fill it, the first in its high stages. -/
theorem shift_three_bytes (b1 b2 b3 : Byte) :
    ((((((0#24 <<< 8) ||| b1.setWidth 24) <<< 8) ||| b2.setWidth 24) <<< 8) ||| b3.setWidth 24 : Addr) =
      b1 ++ b2 ++ b3 := by
  apply BitVec.eq_of_getLsbD_eq
  intro k hk
  have hk8 : k - 8 < 24 := by omega
  simp only [BitVec.getLsbD_append, BitVec.getLsbD_or, BitVec.getLsbD_shiftLeft, BitVec.getLsbD_setWidth, hk, hk8]
  rcases Nat.lt_or_ge k 8 with hlow | hlow
  · simp [hlow]
  · have hb3 : b3.getLsbD k = false := BitVec.getLsbD_of_ge b3 k hlow
    rcases Nat.lt_or_ge (k - 8) 8 with hmid | hmid
    · simp [hmid, hb3, Nat.not_lt.2 hlow]
    · have hb2 : b2.getLsbD (k - 8) = false := BitVec.getLsbD_of_ge b2 (k - 8) hmid
      have hk16 : k - 8 - 8 < 24 := by omega
      simp [hb3, hb2, hk16, Nat.not_lt.2 hlow, Nat.not_lt.2 hmid]

/-- Settles O30: `clear` empties the chain, and each `send_byte` shifts one reversed byte into it. -/
theorem threeSendBytesLoadThreeReversedBytes : Obligations.ThreeSendBytesLoadThreeReversedBytes := by
  unfold Obligations.ThreeSendBytesLoadThreeReversedBytes
  rintro b1 b2 b3 s ⟨hsrclk, hrclk⟩
  obtain ⟨t, hclear, hidle, hsc⟩ : ∃ t, exec .clear s = .next t ∧ ClocksIdle t ∧ t.sc = 0#24 :=
    ⟨_, exec_clear s, ⟨hsrclk, hrclk, rfl⟩, rfl⟩
  obtain ⟨t1, hsend1, hidle1, hsc1, -⟩ := exec_sendByte_chain b1 hidle
  obtain ⟨t2, hsend2, hidle2, hsc2, -⟩ := exec_sendByte_chain b2 hidle1
  obtain ⟨t3, hsend3, -, hsc3, hpr3⟩ := exec_sendByte_chain b3 hidle2
  have hchain : t3.sc = rev8 b1 ++ rev8 b2 ++ rev8 b3 := by rw [hsc3, hsc2, hsc1, hsc, shift_three_bytes]
  refine ⟨t3, ?_, hchain, hpr3.trans hchain⟩
  rw [execAll_cons hclear, execAll_cons hsend1, execAll_cons hsend2, execAll_cons hsend3]
  rfl

end Sys2Proof.Machine

namespace Sys2Proof.Machine

open Sys2Proof.Safety

/-! ## What the shift-register operations write (40_shift_register.md R108) -/

/-- The micro-operation drives one of the five lines of the shift register. -/
def DrivesShiftRegister : Micro → Prop
  | .set l _ => l ≠ .ceN ∧ l ≠ .oeN ∧ l ≠ .weN
  | .set3 _ | .dir _ | .data _ | .wait _ | .sample | .respData | .resp _ => False

/-- The state with the shift register, RQ and TRACE of another: the nine fields of R108. -/
def withShiftRegisterOf (s t : State) : State :=
  { t with
    ser := s.ser, srclk := s.srclk, rclk := s.rclk, clrN := s.clrN, srOeN := s.srOeN, sc := s.sc, pr := s.pr,
    rq := s.rq, trace := s.trace }

theorem withShiftRegisterOf_perform {m : Micro} (hm : DrivesShiftRegister m) (s : State) :
    withShiftRegisterOf s (perform m s) = s := by
  cases m with
  | set l v =>
    obtain ⟨hceN, hoeN, hweN⟩ := hm
    cases l with
    | ser => rw [perform_set_ser]; rfl
    | srclk => rw [perform_set_srclk]; rfl
    | rclk => rw [perform_set_rclk]; rfl
    | clrN => rw [perform_set_clrN]; rfl
    | srOeN => rw [perform_set_srOeN]; rfl
    | ceN => exact absurd rfl hceN
    | oeN => exact absurd rfl hoeN
    | weN => exact absurd rfl hweN
  | _ => exact hm.elim

section driving

variable {ms : List Micro}

theorem withShiftRegisterOf_performAll (h : ∀ m ∈ ms, DrivesShiftRegister m) (s : State) :
    withShiftRegisterOf s (performAll ms s) = s := by
  induction ms generalizing s with
  | nil => rfl
  | cons m ms ih =>
    have htail := ih (fun x hx => h x (List.mem_cons_of_mem m hx)) (perform m s)
    calc withShiftRegisterOf s (performAll (m :: ms) s)
        = withShiftRegisterOf s (withShiftRegisterOf (perform m s) (performAll ms (perform m s))) := rfl
      _ = withShiftRegisterOf s (perform m s) := by rw [htail]
      _ = s := withShiftRegisterOf_perform (h m List.mem_cons_self) s

/-- Driving a line pushes no response (R78). -/
theorem performAll_rq_of_drivesShiftRegister (h : ∀ m ∈ ms, DrivesShiftRegister m) (s : State) :
    (performAll ms s).rq = s.rq := by
  refine performAll_rq_of_silent (fun m hm _ => ?_) s
  cases m with
  | set l v => rfl
  | _ => exact (h _ hm).elim

/-- The event of driving a line does not depend on the byte last sampled (R8). -/
theorem performAll_trace_of_drivesShiftRegister (h : ∀ m ∈ ms, DrivesShiftRegister m) (s : State) :
    (performAll ms s).trace = s.trace ++ eventsOf 0#8 ms := by
  induction ms generalizing s with
  | nil => simp
  | cons m ms ih =>
    have hevent (v : Byte) : eventOf v m = eventOf 0#8 m := by
      cases m with
      | set l v => rfl
      | _ => exact (h _ List.mem_cons_self).elim
    rw [performAll_cons, ih (fun x hx => h x (List.mem_cons_of_mem m hx)), perform_trace, hevent, eventsOf_cons,
      List.append_assoc, List.singleton_append]

theorem totalWait_of_drivesShiftRegister (h : ∀ m ∈ ms, DrivesShiftRegister m) : totalWait ms = 0 := by
  induction ms with
  | nil => rfl
  | cons m ms ih =>
    have htail := ih (fun x hx => h x (List.mem_cons_of_mem m hx))
    cases m with
    | set l v => exact htail
    | _ => exact (h _ List.mem_cons_self).elim

end driving

/-- The lists of the seven operations drive lines of the shift register and do nothing else (R100-R106). -/
theorem drivesShiftRegister_of_mem_expand {i : Instr} (hi : ShiftRegisterFamily i) (c : Config) :
    ∀ m ∈ expand c i, DrivesShiftRegister m := by
  have hlatch : ∀ m ∈ latchOps, DrivesShiftRegister m := by simp [latchOps, DrivesShiftRegister]
  have hsendBit (bit : Level) : ∀ m ∈ sendBitOps bit, DrivesShiftRegister m := by
    simp [sendBitOps, shiftOps, DrivesShiftRegister]
  cases i with
  | latch => exact hlatch
  | sendBit bit => exact hsendBit bit
  | sendByte value =>
    exact List.forall_mem_append.2 ⟨List.forall_mem_flatMap.2 fun bit _ => hsendBit bit, hlatch⟩
  | clear | shift | on | off => simp [expand, clearOps, shiftOps, onOps, offOps, DrivesShiftRegister]
  | _ => exact hi.elim

/-- Only `read_page` and `write_bytes` have operands that can be ill-formed (R79). -/
theorem wellFormed_of_shiftRegisterFamily {i : Instr} (hi : ShiftRegisterFamily i) : i.WellFormed := by
  cases i with
  | readPage | writeBytes => exact hi.elim
  | _ => trivial

/-- Settles O31: each fact is one of a list that only drives lines of the shift register, with DONE after it. -/
theorem shiftRegisterFamilyFrame : Obligations.ShiftRegisterFamilyFrame := by
  unfold Obligations.ShiftRegisterFamilyFrame
  intro i s hi
  have hdrives := drivesShiftRegister_of_mem_expand hi parameters
  refine ⟨totalWait_of_drivesShiftRegister hdrives, _,
    exec_of_wellFormed (wellFormed_of_shiftRegisterFamily hi) s, ?_⟩
  rw [runCommand_eq]
  refine ⟨withShiftRegisterOf_performAll hdrives s, ?_, ?_⟩
  · rw [emit_rq, pushResponse_rq, performAll_rq_of_drivesShiftRegister hdrives]
  · rw [emit_trace, pushResponse_trace, performAll_trace_of_drivesShiftRegister hdrives]

/-! ## How many micro-operations each command has (00_scope.md R8) -/

theorem sendByteOps_length (value : Byte) : (sendByteOps value).length = 26 := by
  simp [sendByteOps, sendBitsOps_length, byteBits, latchOps]

theorem readPageOps_length (c : Config) (page pageSize : BitVec 24) :
    (readPageOps c page pageSize).length = 83 * pageSize.toNat := by
  simp [readPageOps, flatMap_length _ 83 (readByteOps_length c), pageAddresses]

/-- A helper has one micro-operation more than its batch, the settle wait (R165). -/
theorem helperOps_length (c : Config) (ps : List (Addr × Byte)) : (helperOps c ps).length = 7 + 83 * ps.length := by
  rw [helperOps, List.length_append, writePairsOps_length, List.length_singleton]
  omega

/-- Settles O51. -/
theorem microOperationCounts : Obligations.MicroOperationCounts := by
  unfold Obligations.MicroOperationCounts
  intro i
  cases i with
  | sendByte value => exact sendByteOps_length value
  | setAddress addr => exact setAddressOps_length addr
  | readByte addr => exact readByteOps_length parameters addr
  | readPage page pageSize => exact readPageOps_length parameters page pageSize
  | writeBytes addresses data =>
    exact (writePairsOps_length parameters (addresses.zip data)).trans (by rw [List.length_zip])
  | enableProtection => exact helperOps_length parameters (enableProtectionPairs parameters)
  | disableProtection => exact helperOps_length parameters (disableProtectionPairs parameters)
  | eraseChip => exact helperOps_length parameters (eraseChipPairs parameters)
  | _ => rfl

end Sys2Proof.Machine

namespace Sys2Proof.Machine

open Sys2Proof.Safety

/-! ## Who drives SR_OE_n (40_shift_register.md R104) -/

/-- SR_OE_n is written by its own `SET` alone (R25). -/
theorem performAll_srOeN_of_no_set {ms : List Micro} (h : ∀ v, .set .srOeN v ∉ ms) (s : State) :
    (performAll ms s).srOeN = s.srOeN := by
  induction ms generalizing s with
  | nil => rfl
  | cons m ms ih =>
    obtain ⟨-, -, -, -, hsrOeN, -⟩ := eachRegisterHasItsWriters m s
    rw [performAll_cons, ih (fun v hv => h v (List.mem_cons_of_mem m hv)), hsrOeN]
    split
    · exact absurd List.mem_cons_self (h _)
    · rfl

theorem no_srOeN_in_setAddressOps (a : Addr) (v : Level) : .set .srOeN v ∉ setAddressOps a := by
  simp [setAddressOps, clearOps, latchOps, sendBitsOps, sendBitOps, shiftOps]

theorem no_srOeN_in_readByteOps (c : Config) (a : Addr) (v : Level) : .set .srOeN v ∉ readByteOps c a := by
  simp [readByteOps, ioInputOps, set1Ops, no_srOeN_in_setAddressOps]

theorem no_srOeN_in_writePairsOps (c : Config) (ps : List (Addr × Byte)) (v : Level) :
    .set .srOeN v ∉ writePairsOps c ps := by
  simp [writePairsOps, writeOpeningOps, writePairOps, writeClosingOps, ioOutputOps, set1Ops, no_srOeN_in_setAddressOps]

theorem no_srOeN_in_helperOps (c : Config) (ps : List (Addr × Byte)) (v : Level) :
    .set .srOeN v ∉ helperOps c ps := by
  simp [helperOps, no_srOeN_in_writePairsOps]

/-- The list of no command but `on` and `off` drives SR_OE_n. -/
theorem no_srOeN_in_expand (c : Config) {i : Instr} (hon : i ≠ .on) (hoff : i ≠ .off) (v : Level) :
    .set .srOeN v ∉ expand c i := by
  cases i with
  | on => exact absurd rfl hon
  | off => exact absurd rfl hoff
  | setAddress addr => exact no_srOeN_in_setAddressOps addr v
  | readByte addr => exact no_srOeN_in_readByteOps c addr v
  | readPage page pageSize => simp [expand, readPageOps, no_srOeN_in_readByteOps]
  | writeBytes addresses data => exact no_srOeN_in_writePairsOps c _ v
  | enableProtection | disableProtection | eraseChip => exact no_srOeN_in_helperOps c _ v
  | clear | shift | latch | sendBit | sendByte | set1 | set0 | ioOutput | ioInput =>
    simp [expand, clearOps, shiftOps, latchOps, sendBitOps, sendByteOps, sendBitsOps, set1Ops, set0Ops, ioOutputOps,
      ioInputOps]

theorem runCommand_srOeN_of_no_set {ms : List Micro} (h : ∀ v, .set .srOeN v ∉ ms) (op : Byte) (s : State) :
    (runCommand op ms s).srOeN = s.srOeN := by
  rw [runCommand_eq]
  exact performAll_srOeN_of_no_set h s

/-- Settles O55: of the rows of the step table a boundary has, only FETCH can reach SR_OE_n, and the lists of the other
commands do not drive it. -/
theorem onlyOnAndOffChangeTheOutputs : Obligations.OnlyOnAndOffChangeTheOutputs := by
  unfold Obligations.OnlyOnAndOffChangeTheOutputs
  intro s t ht hr hst hne
  rcases step_cases hst with ⟨turn, rest, hturns, -⟩ | ⟨-, m, rest, hrun, -⟩ | ⟨-, -, -, i, n, hd, he⟩ |
    ⟨-, -, -, code, op, -, rfl⟩ | ⟨-, -, -, -, rfl⟩
  · cases ht.symm.trans hturns
  · cases hr.symm.trans hrun
  · cases (exec_of_decode_ok hd _).symm.trans he
    by_cases hon : i = .on
    · exact ⟨n, .inl (hon ▸ hd)⟩
    by_cases hoff : i = .off
    · exact ⟨n, .inr (hoff ▸ hd)⟩
    exact absurd (runCommand_srOeN_of_no_set (no_srOeN_in_expand parameters hon hoff) _ _) hne
  · exact absurd rfl hne
  · exact absurd rfl hne

end Sys2Proof.Machine

namespace Sys2Proof.Machine

open Sys2Proof.Safety

/-! ## The shift-register operations with their words (40_shift_register.md R100-R105) -/

/-- A command of format Z among the five of the shift register refuses a nonzero must-be-zero field (R76, R77). -/
theorem decode_shiftRegister_reserved {op : Byte} (hop : op ∈ [0x01#8, 0x02#8, 0x03#8, 0x04#8, 0x05#8]) (w : Word)
    (ws : List Word) (hw : opField w = op) (hlow : lowField w ≠ 0#24) :
    decode (w :: ws) = .error .reservedNonzero op := by
  obtain ⟨hZ, -⟩ := reservedFieldsAreRefused
  subst hw
  exact hZ w ws (List.mem_append_left [0x10#8, 0x11#8, 0x12#8, 0x13#8, 0x18#8, 0x19#8, 0x1A#8] hop) hlow

/-- Settles O21. -/
theorem clearZeroesTheChain : Obligations.ClearZeroesTheChain := by
  unfold Obligations.ClearZeroesTheChain
  refine ⟨fun _ => rfl, decode_shiftRegister_reserved (by decide), rfl, fun s => ?_, exec_clear⟩
  rw [perform_set_clrN]
  rfl

/-- Settles O22. -/
theorem shiftMovesTheChain : Obligations.ShiftMovesTheChain := by
  unfold Obligations.ShiftMovesTheChain
  exact ⟨fun _ => rfl, decode_shiftRegister_reserved (by decide), rfl, fun _ => exec_shift_of_idle⟩

/-- Settles O24. -/
theorem latchCopiesTheChain : Obligations.LatchCopiesTheChain := by
  unfold Obligations.LatchCopiesTheChain
  exact ⟨fun _ => rfl, decode_shiftRegister_reserved (by decide), rfl, fun _ => exec_latch, fun _ => exec_latch_of_high⟩

/-- Settles O25. -/
theorem onEnablesTheAddressBus : Obligations.OnEnablesTheAddressBus := by
  unfold Obligations.OnEnablesTheAddressBus
  exact ⟨fun _ => rfl, decode_shiftRegister_reserved (by decide), rfl, fun s => ⟨_, exec_on s, rfl, rfl⟩⟩

/-- With the outputs off neither a read cycle nor a strobe is well-formed (R51, R52). -/
theorem illFormed_of_outputs_off {s : State} (h : s.srOeN = true) :
    readWellFormed s = false ∧ strobeWellFormed s = false := by
  simp [readWellFormed, strobeWellFormed, h]

/-- Settles O26: the second `off` starts where the first has ended. -/
theorem offReleasesTheAddressBus : Obligations.OffReleasesTheAddressBus := by
  unfold Obligations.OffReleasesTheAddressBus
  refine ⟨fun _ => rfl, decode_shiftRegister_reserved (by decide), rfl,
    fun s => ⟨_, exec_off s, rfl, rfl, illFormed_of_outputs_off rfl⟩, fun s => ?_⟩
  rw [execAll_pair (exec_off s) (exec_off _)]
  simp [answered, doneWord, offOps, eventOf]

/-- Settles O27. -/
theorem sendBitShiftsItsBitIn : Obligations.SendBitShiftsItsBitIn := by
  unfold Obligations.SendBitShiftsItsBitIn
  obtain ⟨-, hB1, -⟩ := reservedFieldsAreRefused
  exact ⟨fun _ => rfl, fun _ => rfl, hB1, fun _ => rfl, fun bit _ => exec_sendBit bit⟩

end Sys2Proof.Machine

namespace Sys2Proof.Machine

open Sys2Proof.Safety

/-! ## Line control (41_eeprom_line_control.md R120-R125) -/

/-- The list of `set_address` is that of `clear`, of `send_bit` from bit 23 down to bit 0, and of `latch` (R124). -/
theorem expand_setAddress_eq_clear_sendBits_latch (a : Addr) : expand parameters (.setAddress a) =
    expand parameters .clear ++ (List.range 24).reverse.flatMap (fun i => expand parameters (.sendBit (a.getLsbD i))) ++
      expand parameters .latch := by
  rw [expand_setAddress, setAddressOps, sendBitsOps, addressBits_eq_reverse, List.flatMap_map]
  rfl

/-- `set_address` with its DONE response, from low clock lines (R125). -/
theorem exec_setAddress (a : Addr) {s : State} (h : ClocksLow s) : exec (.setAddress a) s = .next
    (answered 0x14#8 [] (eventsOf 0#8 (expand parameters (.setAddress a)))
      { s with ser := a.getLsbD 0, srclk := false, rclk := false, clrN := true, sc := a, pr := a }) := by
  obtain ⟨hsrclk, hrclk⟩ := h
  exact exec_eq_answered_of_silent (i := .setAddress a) rfl (performAll_setAddressOps a hsrclk hrclk)

/-- Settles O36: the clear and 24 shifts fill the chain, and the latch copies it. -/
theorem setAddressLoadsTheAddress : Obligations.SetAddressLoadsTheAddress := by
  unfold Obligations.SetAddressLoadsTheAddress
  exact ⟨expand_setAddress_eq_clear_sendBits_latch, fun a _ h => exec_setAddress a h⟩

theorem exec_set1 (s : State) : exec .set1 s = .next
    (answered 0x10#8 [] (eventsOf 0#8 set1Ops) { s with ceN := true, oeN := true, weN := true }) :=
  exec_eq_answered_of_silent (i := .set1) rfl (perform_set3_high s)

/-- R121, R52: the three lines fall at once, so OE_n is 0 at the strobe, which is ill-formed. -/
theorem exec_set0_strobes {s : State} (h : s.ceN = true ∨ s.weN = true) : exec .set0 s = .next
    (answered 0x11#8 [] (eventsOf 0#8 set0Ops)
      { s with
        ceN := false, oeN := false, weN := false
        history := s.history ++ [.illFormedStrobe (Config.freeAddress s.draws) (Config.freeByte s.draws)]
        draws := s.draws + 1
        device := if s.device = .ideal then .outside else s.device }) := by
  rw [← leaveDomain_device]
  exact exec_eq_answered_of_silent (i := .set0) rfl (perform_set3_low_strobes h)

/-- R52: where CE_n and WE_n are both 0 already there is no strobe. -/
theorem exec_set0_of_low {s : State} (hceN : s.ceN = false) (hweN : s.weN = false) : exec .set0 s = .next
    (answered 0x11#8 [] (eventsOf 0#8 set0Ops) { s with ceN := false, oeN := false, weN := false }) :=
  exec_eq_answered_of_silent (i := .set0) rfl (perform_set3_low_of_low hceN hweN)

theorem exec_ioOutput (s : State) : exec .ioOutput s = .next
    (answered 0x12#8 [] (eventsOf 0#8 ioOutputOps) { s with dir := .output }) :=
  exec_eq_answered_of_silent (i := .ioOutput) rfl (perform_dir .output s)

theorem exec_ioInput (s : State) : exec .ioInput s = .next
    (answered 0x13#8 [] (eventsOf 0#8 ioInputOps) { s with dir := .input }) :=
  exec_eq_answered_of_silent (i := .ioInput) rfl (perform_dir .input s)

/-- A line control command of format Z refuses a nonzero must-be-zero field (R76, R77). -/
theorem decode_lineControl_reserved {op : Byte} (hop : op ∈ [0x10#8, 0x11#8, 0x12#8, 0x13#8]) (w : Word)
    (ws : List Word) (hw : opField w = op) (hlow : lowField w ≠ 0#24) :
    decode (w :: ws) = .error .reservedNonzero op := by
  obtain ⟨hZ, -⟩ := reservedFieldsAreRefused
  subst hw
  exact hZ w ws (List.mem_append_right [0x01#8, 0x02#8, 0x03#8, 0x04#8, 0x05#8]
    (List.mem_append_left [0x18#8, 0x19#8, 0x1A#8] hop)) hlow

/-- Settles O32. -/
theorem setOneDeselects : Obligations.SetOneDeselects := by
  unfold Obligations.SetOneDeselects
  exact ⟨fun _ => rfl, decode_lineControl_reserved (by decide), rfl, exec_set1⟩

/-- Settles O33. -/
theorem setZeroSelectsAndStrobes : Obligations.SetZeroSelectsAndStrobes := by
  unfold Obligations.SetZeroSelectsAndStrobes
  exact ⟨fun _ => exec_set0_strobes, fun _ => exec_set0_of_low⟩

/-- With the data lines at output and the chip's outputs selected, both sides drive them (R66). -/
theorem contention_of_output {s : State} (hdir : s.dir = .output) (hceN : s.ceN = false) (hoeN : s.oeN = false) :
    contention s = true := by
  simp [contention, hdir, hceN, hoeN]

/-- Settles O34: DOUT is not written, so its old byte is what the lines carry. -/
theorem ioOutputDrivesTheOldByte : Obligations.IoOutputDrivesTheOldByte := by
  unfold Obligations.IoOutputDrivesTheOldByte
  exact ⟨fun _ => rfl, decode_lineControl_reserved (by decide), rfl,
    fun s => ⟨_, exec_ioOutput s, rfl, rfl, fun hceN hoeN => contention_of_output rfl hceN hoeN⟩⟩

/-- Settles O35. -/
theorem ioInputReleasesTheLines : Obligations.IoInputReleasesTheLines := by
  unfold Obligations.IoInputReleasesTheLines
  exact ⟨fun _ => rfl, decode_lineControl_reserved (by decide), rfl, fun s => ⟨_, exec_ioInput s, rfl, rfl, rfl⟩⟩

end Sys2Proof.Machine

namespace Sys2Proof.Machine

open Sys2Proof.Safety

/-! ## read_page (42_eeprom_read.md R137, R138, 60_exceptions.md R181, R184) -/

/-- The list of `read_page` is that of `read_byte` at each offset of the page, ascending (R137). -/
theorem expand_readPage_eq_readBytes (page pageSize : BitVec 24) : expand parameters (.readPage page pageSize) =
    (List.range pageSize.toNat).flatMap (fun off =>
      expand parameters (.readByte (BitVec.ofNat 24 (page.toNat * pageSize.toNat + off)))) := by
  rw [expand_readPage, pageAddresses, List.flatMap_map]
  rfl

/-- An in-range `read_page` of well-formed reads with its DONE response. -/
theorem exec_readPage {page pageSize : BitVec 24} (hpage : pageInRange page pageSize) {s : State} (hc : ClocksLow s)
    (hw : s.weN = true) (ho : s.srOeN = false) :
    exec (.readPage page pageSize) s = .next
      (answered 0x16#8 ((pageAnswers s page pageSize).map Prod.snd)
        ((pageAnswers s page pageSize).flatMap (fun p => eventsOf p.2 (expand parameters (.readByte p.1))))
        (afterReads (pageAnswers s page pageSize) s)) := by
  refine exec_eq_answered (i := .readPage page pageSize) (exec_of_wellFormed hpage s) ?_
  rw [expand_readPage, performAll_reads parameters _ hc hw ho, ← pageAnswers_eq, afterReads_rq, afterReads_trace]
  rfl

/-- In a page in range the address of an offset is exact: it does not wrap at 24 bits (R138). -/
theorem toNat_pageAddress {page pageSize : BitVec 24} (hpage : pageInRange page pageSize) {off : Nat}
    (hoff : off < pageSize.toNat) :
    (BitVec.ofNat 24 (page.toNat * pageSize.toNat + off)).toNat = page.toNat * pageSize.toNat + off := by
  rw [BitVec.toNat_ofNat]
  exact Nat.mod_eq_of_lt (by omega)

/-- The answer at an offset of the page is the one for the address of that offset. -/
theorem pageAnswers_getElem?_fst (s : State) {page pageSize : BitVec 24} {off : Nat} (hoff : off < pageSize.toNat) :
    (pageAnswers s page pageSize)[off]?.map Prod.fst =
      some (BitVec.ofNat 24 (page.toNat * pageSize.toNat + off)) := by
  simp [pageAnswers, hoff]

/-- Settles O40: the reads of the page run as `performAll_reads` says, and no address of a page in range wraps. -/
theorem readPageReadsItsAddressesInOrder : Obligations.ReadPageReadsItsAddressesInOrder := by
  unfold Obligations.ReadPageReadsItsAddressesInOrder
  refine ⟨expand_readPage_eq_readBytes, fun page pageSize s hpage hc hw ho =>
    ⟨exec_readPage hpage hc hw ho, fun off hoff => ?_⟩⟩
  calc (pageAnswers s page pageSize)[off]?.map (fun p => p.1.toNat)
      = ((pageAnswers s page pageSize)[off]?.map Prod.fst).map BitVec.toNat := by rw [Option.map_map]; rfl
    _ = some (page.toNat * pageSize.toNat + off) := by
      rw [pageAnswers_getElem?_fst s hoff, Option.map_some, toNat_pageAddress hpage hoff]

/-- Settles O41: such a page is not in range, so the command is the error entry. -/
theorem readPageOutOfRangeIsRefusedWhole : Obligations.ReadPageOutOfRangeIsRefusedWhole := by
  unfold Obligations.ReadPageOutOfRangeIsRefusedWhole
  intro page pageSize s hsize hlast
  have hpage : ¬ pageInRange page pageSize := by omega
  rw [exec_readPage_outOfRange hpage]
  rfl

end Sys2Proof.Machine

namespace Sys2Proof

/-! ## Bad operand words of write_bytes (30_encoding.md R72, R77, 43_eeprom_write.md R151) -/

section badWords

variable {na nd : BitVec 24} {addressWords dataWords : List Word}

/-- The scan of the address words stops at the bad one. -/
theorem decode_writeBytes_of_bad_address (hna : addressWords.length = na.toNat)
    (hbad : ∃ w ∈ addressWords, addressWordMbz w = false) (more : List Word) :
    decode (packWord 0x17#8 na :: packWord 0#8 nd :: (addressWords ++ more)) = .error .reservedNonzero 0x17#8 := by
  have hscan := scanWords_reserved addressWordMbz lowField addressWords more hbad
  rw [hna] at hscan
  simp [decode, decodeWB, opField_packWord, highField_packWord, lowField_packWord, hscan]

/-- The scan of the address words takes them all, and that of the data words stops at the bad one. -/
theorem decode_writeBytes_of_bad_data (hna : addressWords.length = na.toNat) (hnd : dataWords.length = nd.toNat)
    (hgood : ∀ w ∈ addressWords, addressWordMbz w = true) (hbad : ∃ w ∈ dataWords, dataWordMbz w = false)
    (more : List Word) :
    decode (packWord 0x17#8 na :: packWord 0#8 nd :: (addressWords ++ (dataWords ++ more))) =
      .error .reservedNonzero 0x17#8 := by
  have haddresses := scanWords_good addressWordMbz lowField addressWords (dataWords ++ more) hgood
  have hdata := scanWords_reserved dataWordMbz byteField dataWords more hbad
  rw [hna] at haddresses
  rw [hnd] at hdata
  simp [decode, decodeWB, opField_packWord, highField_packWord, lowField_packWord, haddresses, hdata]

/-- A bad word anywhere in either list is refused, also one the pairing would ignore (R151). -/
theorem decode_writeBytes_of_bad_word (hna : addressWords.length = na.toNat) (hnd : dataWords.length = nd.toNat)
    (hbad : (∃ w ∈ addressWords, addressWordMbz w = false) ∨ (∃ w ∈ dataWords, dataWordMbz w = false))
    (more : List Word) :
    decode (packWord 0x17#8 na :: packWord 0#8 nd :: (addressWords ++ dataWords ++ more)) =
      .error .reservedNonzero 0x17#8 := by
  rw [List.append_assoc]
  by_cases haddress : ∃ w ∈ addressWords, addressWordMbz w = false
  · exact decode_writeBytes_of_bad_address hna haddress _
  · have hgood : ∀ w ∈ addressWords, addressWordMbz w = true := by simpa using haddress
    exact decode_writeBytes_of_bad_data hna hnd hgood (hbad.resolve_left haddress) more

end badWords

/-- Both lists are fetched whole, whatever their lengths (R151). -/
theorem decode_encode_writeBytes {addresses : List Addr} {data : List Byte} (hna : lengthFits addresses)
    (hnd : lengthFits data) (rest : List Word) : decode (encode (.writeBytes addresses data) ++ rest) =
      .ok (.writeBytes addresses data) (2 + addresses.length + data.length) := by
  rw [decode_encode (i := .writeBytes addresses data) ⟨hna, hnd⟩ rest, encode_length, commandLength]

end Sys2Proof

namespace Sys2Proof.Machine

open Sys2Proof.Safety

/-! ## The batch of write_bytes (43_eeprom_write.md R150-R152) -/

/-- The list of a batch, written out as R150 gives it. -/
theorem expand_writeBytes_eq_opening_pairs_closing (addresses : List Addr) (data : List Byte) :
    expand parameters (.writeBytes addresses data) =
      ([.dir .output, .set .oeN false, .wait 50000000, .set .oeN true] : List Micro) ++
        (addresses.zip data).flatMap (fun p => expand parameters (.setAddress p.1) ++
          ([.set .ceN true, .set .weN true, .wait 150, .data p.2, .wait 100, .set .ceN false, .set .weN false] :
            List Micro)) ++
        ([.set3 true, .wait 150] : List Micro) := by
  rw [expand_writeBytes, writePairsOps]
  rfl

/-- Settles O42: the strobes are those of `exec_writeBytes`. -/
theorem writeBytesStrobesEachPair : Obligations.WriteBytesStrobesEachPair := by
  unfold Obligations.WriteBytesStrobesEachPair
  exact ⟨fun addresses data _ hc ho => exec_writeBytes addresses data hc ho, expand_writeBytes_eq_opening_pairs_closing⟩

/-- From every state a `write_bytes` runs its list to DONE. -/
theorem exec_writeBytes_eq_run (addresses : List Addr) (data : List Byte) (s : State) :
    exec (.writeBytes addresses data) s =
      .next (runCommand 0x17#8 (writePairsOps parameters (addresses.zip data)) s) := rfl

/-- The one response of a batch is its DONE (R78, R150). -/
theorem runCommand_writePairsOps_rq (op : Byte) (c : Config) (ps : List (Addr × Byte)) (s : State) :
    (runCommand op (writePairsOps c ps) s).rq = s.rq ++ [doneWord op] := by
  rw [runCommand_eq, emit_rq, pushResponse_rq, performAll_rq_of_silent (writePairsOps_silent c ps)]

/-- The k-th pair is the k-th address with the k-th byte, as far as the shorter list goes (R151). -/
theorem zip_eq_map_range_getD (addresses : List Addr) (data : List Byte) : addresses.zip data =
    (List.range (min addresses.length data.length)).map (fun k => (addresses.getD k 0#24, data.getD k 0#8)) := by
  refine List.ext_getElem (by simp) fun k hzip _ => ?_
  obtain ⟨haddress, hdata⟩ : k < addresses.length ∧ k < data.length := by simpa using hzip
  simp [haddress, hdata]

/-- The list of a batch by positions (R151). -/
theorem expand_writeBytes_eq_positions (addresses : List Addr) (data : List Byte) :
    expand parameters (.writeBytes addresses data) =
      writeOpeningOps parameters ++
        (List.range (min addresses.length data.length)).flatMap (fun k =>
          writePairOps parameters (addresses.getD k 0#24, data.getD k 0#8)) ++
        writeClosingOps parameters := by
  rw [expand_writeBytes, writePairsOps, zip_eq_map_range_getD, List.flatMap_map]

/-- Settles O44: decode reads and checks both lists whole, and the list of the command is that of their pairs. -/
theorem writeBytesPairsByPosition : Obligations.WriteBytesPairsByPosition := by
  unfold Obligations.WriteBytesPairsByPosition
  refine ⟨fun _ _ rest hna hnd => decode_encode_writeBytes hna hnd rest, fun addresses data s => ?_,
    fun addresses data s => ?_, expand_writeBytes_eq_positions, fun na nd addressWords dataWords rest hna hnd hbad => ?_⟩
  · exact ⟨_, exec_writeBytes_eq_run addresses data s, runCommand_halted _ _ s, runCommand_writePairsOps_rq _ _ _ s⟩
  · rw [exec_writeBytes_eq_run, exec_writeBytes_eq_run, ← List.zip_eq_zip_take_min]
  · refine decode_writeBytes_of_bad_word hna hnd ?_ rest
    simpa [addressWordMbz, highField, dataWordMbz] using hbad

end Sys2Proof.Machine

namespace Sys2Proof.Machine

open Sys2Proof.Safety

/-! ## The command helpers (44_eeprom_commands.md R165-R170) -/

/-- The row of `enable_protection`, its addresses paired with its bytes (R170). -/
theorem enableProtectionPairs_eq_zip (c : Config) : enableProtectionPairs c =
    [c.unlockAddr1, c.unlockAddr2, c.unlockAddr1].zip [c.unlockData1, c.unlockData2, c.cmdProtect] := rfl

/-- The rows of `disable_protection` and `erase_chip` are two unlock triples, the second with the command byte (R170). -/
theorem two_unlockTriples_eq_zip (c : Config) (command : Byte) : unlockTriple c c.cmdSetup ++ unlockTriple c command =
    [c.unlockAddr1, c.unlockAddr2, c.unlockAddr1, c.unlockAddr1, c.unlockAddr2, c.unlockAddr1].zip
      [c.unlockData1, c.unlockData2, c.cmdSetup, c.unlockData1, c.unlockData2, command] := rfl

/-- Settles O49: a `write_bytes` is the list of its zipped operands, and each row of R170 is such a zip. -/
theorem helpersAreOneWriteAndAWait : Obligations.HelpersAreOneWriteAndAWait := by
  unfold Obligations.HelpersAreOneWriteAndAWait
  refine fun c => ⟨?_, ?_, ?_⟩
  · rw [expand_enableProtection, expand_writeBytes, enableProtectionPairs_eq_zip]
  · rw [expand_disableProtection, expand_writeBytes, disableProtectionPairs, two_unlockTriples_eq_zip]
  · rw [expand_eraseChip, expand_writeBytes, eraseChipPairs, two_unlockTriples_eq_zip]

/-- A helper of format Z refuses a nonzero must-be-zero field (R76, R77). -/
theorem decode_helper_reserved {op : Byte} (hop : op ∈ [0x18#8, 0x19#8, 0x1A#8]) (w : Word) (ws : List Word)
    (hw : opField w = op) (hlow : lowField w ≠ 0#24) : decode (w :: ws) = .error .reservedNonzero op := by
  obtain ⟨hZ, -⟩ := reservedFieldsAreRefused
  subst hw
  exact hZ w ws (List.mem_append_right [0x01#8, 0x02#8, 0x03#8, 0x04#8, 0x05#8, 0x10#8, 0x11#8, 0x12#8, 0x13#8] hop)
    hlow

/-- After its batch a helper only waits (R165). -/
theorem performAll_helperOps (c : Config) (ps : List (Addr × Byte)) (s : State) :
    performAll (helperOps c ps) s = emit (.wait c.tCmdSettle) (performAll (writePairsOps c ps) s) := by
  rw [helperOps, performAll_append, performAll_cons, performAll_nil, perform_wait]

section helper

variable {i : Instr} (hi : i.WellFormed) {ps : List (Addr × Byte)}
  (hlist : expand parameters i = helperOps parameters ps)
include hi hlist

/-- A helper with the outputs on, and its DONE response: the state its batch of pairs leaves (R165, R152). -/
theorem exec_helper {s : State} (hc : ClocksLow s) (ho : s.srOeN = false) : exec i s = .next
    (answered (opcodeOf i) [] (eventsOf 0#8 (expand parameters i)) (afterWriteBatch ps s)) := by
  refine exec_eq_answered_of_silent (exec_of_wellFormed hi s) ?_
  rw [hlist, performAll_helperOps, performAll_writePairsOps parameters ps hc ho, helperOps]
  simp [emit, eventOf]

/-- From every state a helper ends as the `write_bytes` of its pairs does, but for the wait and the DONE word (R165). -/
theorem exec_helper_eq_writeBytes {addresses : List Addr} {data : List Byte} (hps : addresses.zip data = ps)
    (s : State) : ∃ t u, exec (.writeBytes addresses data) s = .next t ∧ exec i s = .next u ∧
      ∃ events, t.trace = s.trace ++ events ++ ([.resp (doneWord 0x17#8)] : List Event) ∧
        u.trace = s.trace ++ events ++ ([.wait parameters.tCmdSettle, .resp (doneWord (opcodeOf i))] : List Event) ∧
        { u with trace := t.trace, rq := t.rq } = t ∧ u.rq = s.rq ++ [doneWord (opcodeOf i)] := by
  subst hps
  obtain ⟨events, -, htrace⟩ := performAll_trace_length (writePairsOps parameters (addresses.zip data)) s
  have hrq := performAll_rq_of_silent (writePairsOps_silent parameters (addresses.zip data)) s
  refine ⟨_, _, exec_writeBytes_eq_run addresses data s, exec_of_wellFormed hi s, events, ?_⟩
  rw [hlist, runCommand_eq, runCommand_eq, performAll_helperOps]
  generalize performAll (writePairsOps parameters (addresses.zip data)) s = batch at htrace hrq
  exact ⟨by simp [htrace], by simp [htrace], rfl, by simp [hrq]⟩

end helper

/-- Settles O48: the rows of R170 are the six pairs, and each helper ends as `exec_helper` says. -/
theorem disableProtectionAndEraseChipWriteSixPairs : Obligations.DisableProtectionAndEraseChipWriteSixPairs := by
  unfold Obligations.DisableProtectionAndEraseChipWriteSixPairs
  exact fun s hc ho =>
    ⟨exec_helper (i := .disableProtection) trivial (ps := disableProtectionPairs parameters) rfl hc ho,
      exec_helper (i := .eraseChip) trivial (ps := eraseChipPairs parameters) rfl hc ho⟩

/-- Settles O47: the three pairs are the row of R170, so its list is that of `helpersAreOneWriteAndAWait`, and its end state
that of the batch. -/
theorem enableProtectionIsAWriteAndAWait : Obligations.EnableProtectionIsAWriteAndAWait := by
  unfold Obligations.EnableProtectionIsAWriteAndAWait
  obtain ⟨hlist, -⟩ := helpersAreOneWriteAndAWait parameters
  have hhelper : expand parameters .enableProtection = helperOps parameters (enableProtectionPairs parameters) := rfl
  refine ⟨hlist, fun _ => rfl, fun w ws => decode_helper_reserved (by decide) w ws,
    exec_helper_eq_writeBytes (i := .enableProtection) trivial hhelper rfl, fun s hc ho => ?_⟩
  exact ⟨_, exec_helper (i := .enableProtection) trivial hhelper hc ho, rfl, rfl, rfl, rfl, rfl, ⟨rfl, rfl, rfl⟩, rfl⟩

end Sys2Proof.Machine

namespace Sys2Proof.Machine

/-! ## The error entry (60_exceptions.md R184) -/

/-- The whole state of the error entry: all fields but RQ, TRACE and HALTED are those of `s`, CQ with the offending words
among them. -/
theorem errorEntry_eq (code : ErrorCode) (op : Byte) (s : State) : errorEntry code op s =
    { s with rq := s.rq ++ [errWord code op], trace := s.trace ++ [.resp (errWord code op)], halted := true } := rfl

/-- Settles O6: at a command boundary the ERROR row of the step table takes the error entry. -/
theorem errorEntryPushesErrAndHalts : Obligations.ErrorEntryPushesErrAndHalts := by
  unfold Obligations.ErrorEntryPushesErrAndHalts
  intro s code op hready herror
  rw [step_of_decode_error hready herror, errorEntry_eq, errWord]

end Sys2Proof.Machine

namespace Sys2Proof.Machine

open Sys2Proof.Safety

/-! ## The external reset (70_reset_and_hazards.md R210, R211) -/

/-- Settles O3: the turn is `hardReset`, and the four unspecified registers take the values of the state's next draw. Nothing
is asked of RUN, so it is also the reset inside a command. -/
theorem externalResetGivesTheResetState : Obligations.ExternalResetGivesTheResetState := by
  unfold Obligations.ExternalResetGivesTheResetState
  intro s rest hturns
  have hstep : step s = .next (hardReset { s with turns := rest }) := step_of_turn hturns
  exact ⟨_, _, _, _, hstep⟩

/-! ## The minimum total waits (70_reset_and_hazards.md R230) -/

theorem totalWait_readPageOps (c : Config) (page pageSize : BitVec 24) :
    totalWait (readPageOps c page pageSize) = pageSize.toNat * c.tReadAccess := by
  rw [readPageOps, totalWait_flatMap _ _ (totalWait_readByteOps c), pageAddresses, List.length_map, List.length_range]

theorem totalWait_helperOps (c : Config) (ps : List (Addr × Byte)) : totalWait (helperOps c ps) =
    c.tOePulse + ps.length * (c.tWriteSetup + c.tWriteData) + c.tWriteSettle + c.tCmdSettle := by
  rw [helperOps, totalWait_append, totalWait_writePairsOps]
  rfl

/-- Settles O52: each `read_byte` of a list waits once and each pair of a batch twice, a batch waits once more at its opening
and at its closing and a helper once after its batch; the other lists hold no wait. -/
theorem minimumTotalWaits : Obligations.MinimumTotalWaits := by
  unfold Obligations.MinimumTotalWaits
  intro i
  cases i with
  | clear | shift | latch | on | off | sendBit _ | sendByte _ =>
    exact totalWait_of_drivesShiftRegister (drivesShiftRegister_of_mem_expand trivial parameters)
  | set1 | set0 | ioOutput | ioInput => rfl
  | setAddress addr => exact totalWait_setAddressOps addr
  | readByte addr => exact totalWait_readByteOps parameters addr
  | readPage page pageSize => exact totalWait_readPageOps parameters page pageSize
  | writeBytes addresses data =>
    exact (totalWait_writePairsOps parameters (addresses.zip data)).trans (by rw [List.length_zip]; rfl)
  | enableProtection => exact totalWait_helperOps parameters (enableProtectionPairs parameters)
  | disableProtection => exact totalWait_helperOps parameters (disableProtectionPairs parameters)
  | eraseChip => exact totalWait_helperOps parameters (eraseChipPairs parameters)

end Sys2Proof.Machine
